-- ==== Sys2Proof/Word.lean ====
section
/-!
DEFINITION. The word, the byte and the register number of the block (spec/00_scope.md R9, R11;
spec/10_state.md R20). A register, the PC, a memory word and an instruction word are each one
32-bit vector; a register number is a name, never added or shifted, so it is a `Fin`.
-/

namespace Sys2Proof

/-- A 32-bit word: register contents, the PC, an address, a memory word, an instruction (R9). -/
abbrev Word := BitVec 32

/-- One byte of the byte view of memory (R46). -/
abbrev Byte := BitVec 8

/-- A register number, 0 to 31 (R20). -/
abbrev Reg := Fin 32

/-- The register number a 5-bit field names (R61, R81: "5 bits each"). -/
abbrev Reg.ofField (f : BitVec 5) : Reg := f.toFin

/-- The 5-bit field that names a register. -/
abbrev Reg.toField (r : Reg) : BitVec 5 := BitVec.ofFin r

end Sys2Proof
end

