-- ==== Sys2Proof/Machine/Flags.lean ====
section
/-!
DEFINITION. The block has no flags, condition codes or predicate registers (spec/10_state.md R25), so
nothing here writes one. What a flag would record is computed where it is used: the signed
comparison `slt` writes to a register (spec/41_alu.md R106) and the bitwise equality that `beq` and
`bne` test (spec/40_datapath.md R85).
-/

namespace Sys2Proof.Machine

/-- `if vs <s vt then 1 else 0`, the comparison signed two's complement (R12, R106). -/
def setLess (vs vt : Word) : Word := if vs.toInt < vt.toInt then 1 else 0

/-- `vs == vt`, bitwise (R85). -/
def sameWord (vs vt : Word) : Bool := vs == vt

end Sys2Proof.Machine
end

