-- ==== Sys2Proof/Syntax.lean ====
section
/-!
DEFINITION. The instructions of the block (spec/30_encoding.md R66 and spec/opcode_table.json, in
the table's order): the 18 instructions and the zero-word sentinel. A constructor keeps EVERY field
of its format, the ones its meaning ignores too, because the decoder's output does (R75) and the
decoder ignores nothing but their value (R70): so the encoder can give back the very word decoded.
-/

namespace Sys2Proof

/-- One decoded instruction. R-form constructors hold rs, rt, rd and shamt, I-form ones rs, rt and
the raw 16-bit immediate, J-form ones the 26-bit target (R61, R62, R63, R75). -/
inductive Instr where
  /-- `sll rd, src, shamt` (R102). -/
  | sll (rs rt rd : Reg) (shamt : BitVec 5)
  /-- `srl rd, src, shamt` (R103). -/
  | srl (rs rt rd : Reg) (shamt : BitVec 5)
  /-- `jr rs` (R120). -/
  | jr (rs rt rd : Reg) (shamt : BitVec 5)
  /-- `addu rd, rs, rt` (R100). -/
  | addu (rs rt rd : Reg) (shamt : BitVec 5)
  /-- `subu rd, rs, rt` (R101). -/
  | subu (rs rt rd : Reg) (shamt : BitVec 5)
  /-- `and rd, rs, rt` (R104). -/
  | and (rs rt rd : Reg) (shamt : BitVec 5)
  /-- `or rd, rs, rt` (R105). -/
  | or (rs rt rd : Reg) (shamt : BitVec 5)
  /-- `slt rd, rs, rt` (R106). -/
  | slt (rs rt rd : Reg) (shamt : BitVec 5)
  /-- `j target` (R121). -/
  | j (target : BitVec 26)
  /-- `jal target` (R122). -/
  | jal (target : BitVec 26)
  /-- `beq rs, rt, imm` (R123). -/
  | beq (rs rt : Reg) (imm : BitVec 16)
  /-- `bne rs, rt, imm` (R124). -/
  | bne (rs rt : Reg) (imm : BitVec 16)
  /-- `addiu rt, rs, imm` (R107). -/
  | addiu (rs rt : Reg) (imm : BitVec 16)
  /-- `andi rt, rs, imm` (R108). -/
  | andi (rs rt : Reg) (imm : BitVec 16)
  /-- `ori rt, rs, imm` (R109). -/
  | ori (rs rt : Reg) (imm : BitVec 16)
  /-- `lui rt, imm` (R110). -/
  | lui (rs rt : Reg) (imm : BitVec 16)
  /-- `lw rt, imm(rs)` (R130). -/
  | lw (rs rt : Reg) (imm : BitVec 16)
  /-- `sw rt, imm(rs)` (R131). -/
  | sw (rs rt : Reg) (imm : BitVec 16)
  /-- The zero word, the halt sentinel (R68, R141). -/
  | halt
  deriving DecidableEq, Repr

end Sys2Proof
end

