-- ==== Sys2Proof/WellFormed.lean ====
section
/-!
DEFINITION. Which instruction terms stand for a word. Field widths are in the types, so one check is
left: the all-zero `sll` has the encoding of the halt sentinel and "never executes as `sll`"
(spec/30_encoding.md R68).
-/

namespace Sys2Proof

/-- R68: the `sll` with every field zero is no instruction, since its word is the zero word. -/
abbrev Instr.isNotZeroShift (i : Instr) : Bool := i != .sll 0 0 0 0

/-- The instruction is one that some instruction word decodes to. -/
abbrev Instr.WellFormed (i : Instr) : Bool := i.isNotZeroShift

end Sys2Proof
end

