-- ==== Sys2Proof/Decode.lean ====
section
/-!
DEFINITION. The decoder (spec/30_encoding.md R60 to R71, R75) and, after it, the encoder written
from the same tables. Decoding is total: a word is an instruction, the halt sentinel, or rejected by
name. The word a fetch gives is decoded by `decodeWord`; `decodeBytes` decodes a stream of bytes in
the big-endian byte view of R46.
-/

namespace Sys2Proof

/-- Why the decoder rejects its input. The first two are the causes of `DecodeError` (R140: "opcode
not in the map, or opcode 0 with an unknown funct"); the third can occur only on a byte stream. -/
inductive DecodeReject where
  /-- The opcode is none of the eleven of R69. -/
  | unknownOpcode (opcode : BitVec 6)
  /-- The opcode is 0 and the funct none of the eight of R67. -/
  | unknownFunct (funct : BitVec 6)
  /-- Fewer than four bytes are left. -/
  | truncated (bytes : Nat)
  deriving DecidableEq, Repr

/-! ### Fields (R13, R61, R62, R63) -/

/-- `w[31:26]`. -/
def opcodeField (w : Word) : BitVec 6 := w.extractLsb' 26 6
/-- `w[25:21]`. -/
def rsField (w : Word) : Reg := Reg.ofField (w.extractLsb' 21 5)
/-- `w[20:16]`. -/
def rtField (w : Word) : Reg := Reg.ofField (w.extractLsb' 16 5)
/-- `w[15:11]`. -/
def rdField (w : Word) : Reg := Reg.ofField (w.extractLsb' 11 5)
/-- `w[10:6]`. -/
def shamtField (w : Word) : BitVec 5 := w.extractLsb' 6 5
/-- `w[5:0]`. -/
def functField (w : Word) : BitVec 6 := w.extractLsb' 0 6
/-- `w[15:0]`. -/
def immField (w : Word) : BitVec 16 := w.extractLsb' 0 16
/-- `w[25:0]`. -/
def targetField (w : Word) : BitVec 26 := w.extractLsb' 0 26

/-! ### The decoder (R65) -/

/-- Opcode 0: the funct selects the operation (R67). -/
def decodeRForm (w : Word) : Except DecodeReject Instr :=
  let rs := rsField w
  let rt := rtField w
  let rd := rdField w
  let shamt := shamtField w
  match (functField w).toNat with
  | 0x00 => .ok (.sll rs rt rd shamt)
  | 0x02 => .ok (.srl rs rt rd shamt)
  | 0x08 => .ok (.jr rs rt rd shamt)
  | 0x21 => .ok (.addu rs rt rd shamt)
  | 0x23 => .ok (.subu rs rt rd shamt)
  | 0x24 => .ok (.and rs rt rd shamt)
  | 0x25 => .ok (.or rs rt rd shamt)
  | 0x2a => .ok (.slt rs rt rd shamt)
  | _ => .error (.unknownFunct (functField w))

/-- A word that is not the zero word, by its opcode (R65). -/
def decodeNonzero (w : Word) : Except DecodeReject Instr :=
  match (opcodeField w).toNat with
  | 0x00 => decodeRForm w
  | 0x02 => .ok (.j (targetField w))
  | 0x03 => .ok (.jal (targetField w))
  | 0x04 => .ok (.beq (rsField w) (rtField w) (immField w))
  | 0x05 => .ok (.bne (rsField w) (rtField w) (immField w))
  | 0x09 => .ok (.addiu (rsField w) (rtField w) (immField w))
  | 0x0c => .ok (.andi (rsField w) (rtField w) (immField w))
  | 0x0d => .ok (.ori (rsField w) (rtField w) (immField w))
  | 0x0f => .ok (.lui (rsField w) (rtField w) (immField w))
  | 0x23 => .ok (.lw (rsField w) (rtField w) (immField w))
  | 0x2b => .ok (.sw (rsField w) (rtField w) (immField w))
  | _ => .error (.unknownOpcode (opcodeField w))

/-- R65: the zero word is checked first (R68), then the opcode selects the format. -/
def decodeWord (w : Word) : Except DecodeReject Instr :=
  if w = 0 then .ok .halt else decodeNonzero w

/-! ### Words and bytes (R46: byte j of a word is bits [31-8j : 24-8j]) -/

/-- Byte `j` (0 to 3, lowest address first) of the big-endian byte view of a word. -/
def wordByte (w : Word) (j : Nat) : Byte := w.extractLsb' (24 - 8 * j) 8

/-- The word whose big-endian byte view is `b0 b1 b2 b3`. -/
def wordOfBytes (b0 b1 b2 b3 : Byte) : Word := b0 ++ b1 ++ b2 ++ b3

/-- The bytes of a word as they lie in the byte view, lowest address first. -/
def wordBytes (w : Word) : List Byte := [wordByte w 0, wordByte w 1, wordByte w 2, wordByte w 3]

/-- Decodes the first instruction of a byte stream and gives the bytes after it. -/
def decodeBytes : List Byte → Except DecodeReject (Instr × List Byte)
  | b0 :: b1 :: b2 :: b3 :: rest => (decodeWord (wordOfBytes b0 b1 b2 b3)).map (·, rest)
  | few => .error (.truncated few.length)

/-- What the decoder reads from an instruction whose bits, numbered as spec/opcode_table.json
numbers them (one 32-bit word, bit 0 the least significant), are the low `nbits` bits of `w`: the
word is laid out in bytes and the bytes are decoded. -/
def decodeTableWord (nbits w : Nat) : Option Instr :=
  match decodeBytes (wordBytes (BitVec.ofNat 32 (w % 2 ^ nbits))) with
  | .ok (i, _) => some i
  | .error _ => none

/-! ### The encoder (R60 to R63, R66) -/

/-- The R-form word: opcode, rs, rt, rd, shamt, funct, the most significant first. -/
def rFormWord (rs rt rd : Reg) (shamt : BitVec 5) (funct : BitVec 6) : Word :=
  0x00#6 ++ rs.toField ++ rt.toField ++ rd.toField ++ shamt ++ funct

/-- The I-form word: opcode, rs, rt, immediate. -/
def iFormWord (opcode : BitVec 6) (rs rt : Reg) (imm : BitVec 16) : Word :=
  opcode ++ rs.toField ++ rt.toField ++ imm

/-- The J-form word: opcode, target. -/
def jFormWord (opcode : BitVec 6) (target : BitVec 26) : Word :=
  opcode ++ target

/-- The word of an instruction. It is meant for well-formed instructions: the one ill-formed term,
the all-zero `sll`, gets the zero word, which is the halt sentinel's (R68). -/
def encode : Instr → Word
  | .sll rs rt rd shamt => rFormWord rs rt rd shamt 0x00
  | .srl rs rt rd shamt => rFormWord rs rt rd shamt 0x02
  | .jr rs rt rd shamt => rFormWord rs rt rd shamt 0x08
  | .addu rs rt rd shamt => rFormWord rs rt rd shamt 0x21
  | .subu rs rt rd shamt => rFormWord rs rt rd shamt 0x23
  | .and rs rt rd shamt => rFormWord rs rt rd shamt 0x24
  | .or rs rt rd shamt => rFormWord rs rt rd shamt 0x25
  | .slt rs rt rd shamt => rFormWord rs rt rd shamt 0x2a
  | .j target => jFormWord 0x02 target
  | .jal target => jFormWord 0x03 target
  | .beq rs rt imm => iFormWord 0x04 rs rt imm
  | .bne rs rt imm => iFormWord 0x05 rs rt imm
  | .addiu rs rt imm => iFormWord 0x09 rs rt imm
  | .andi rs rt imm => iFormWord 0x0c rs rt imm
  | .ori rs rt imm => iFormWord 0x0d rs rt imm
  | .lui rs rt imm => iFormWord 0x0f rs rt imm
  | .lw rs rt imm => iFormWord 0x23 rs rt imm
  | .sw rs rt imm => iFormWord 0x2b rs rt imm
  | .halt => 0

/-! ### The opcode table (R66, spec/opcode_table.json) -/

/-- One row of R66's table: `w` is the row's instruction when `(w & mask) == pattern` and `w` is not
the zero word. -/
structure OpcodeRow where
  pattern : Word
  mask : Word
  deriving DecidableEq, Repr

/-- The row of each instruction, copied from R66's match and mask columns and not computed from
`encode`, so that the two check each other. -/
def opcodeRow : Instr → OpcodeRow
  | .sll .. => ⟨0x00000000, 0xFC00003F⟩
  | .srl .. => ⟨0x00000002, 0xFC00003F⟩
  | .jr .. => ⟨0x00000008, 0xFC00003F⟩
  | .addu .. => ⟨0x00000021, 0xFC00003F⟩
  | .subu .. => ⟨0x00000023, 0xFC00003F⟩
  | .and .. => ⟨0x00000024, 0xFC00003F⟩
  | .or .. => ⟨0x00000025, 0xFC00003F⟩
  | .slt .. => ⟨0x0000002A, 0xFC00003F⟩
  | .j .. => ⟨0x08000000, 0xFC000000⟩
  | .jal .. => ⟨0x0C000000, 0xFC000000⟩
  | .beq .. => ⟨0x10000000, 0xFC000000⟩
  | .bne .. => ⟨0x14000000, 0xFC000000⟩
  | .addiu .. => ⟨0x24000000, 0xFC000000⟩
  | .andi .. => ⟨0x30000000, 0xFC000000⟩
  | .ori .. => ⟨0x34000000, 0xFC000000⟩
  | .lui .. => ⟨0x3C000000, 0xFC000000⟩
  | .lw .. => ⟨0x8C000000, 0xFC000000⟩
  | .sw .. => ⟨0xAC000000, 0xFC000000⟩
  | .halt => ⟨0x00000000, 0xFFFFFFFF⟩

/-- The rows of the table, in its order (R66), with the sentinel's row last. -/
def opcodeTable : List OpcodeRow :=
  [⟨0x00000000, 0xFC00003F⟩, ⟨0x00000002, 0xFC00003F⟩, ⟨0x00000008, 0xFC00003F⟩,
   ⟨0x00000021, 0xFC00003F⟩, ⟨0x00000023, 0xFC00003F⟩, ⟨0x00000024, 0xFC00003F⟩,
   ⟨0x00000025, 0xFC00003F⟩, ⟨0x0000002A, 0xFC00003F⟩, ⟨0x08000000, 0xFC000000⟩,
   ⟨0x0C000000, 0xFC000000⟩, ⟨0x10000000, 0xFC000000⟩, ⟨0x14000000, 0xFC000000⟩,
   ⟨0x24000000, 0xFC000000⟩, ⟨0x30000000, 0xFC000000⟩, ⟨0x34000000, 0xFC000000⟩,
   ⟨0x3C000000, 0xFC000000⟩, ⟨0x8C000000, 0xFC000000⟩, ⟨0xAC000000, 0xFC000000⟩,
   ⟨0x00000000, 0xFFFFFFFF⟩]

end Sys2Proof
end

