-- ==== Sys2Proof/Config.lean ====
section
/-!
DEFINITION. The parameters the spec leaves to the implementation (spec/00_scope.md R8;
spec/92_eei_decisions.md D2 to D5). `Config` is the type of a parameter setting. It is a field of
`State` that no step changes, so a statement about every state is a statement about every setting
(notes/assumptions/1.md). What is derived from the parameters stands in Machine/Params.lean.
-/

namespace Sys2Proof

/-- `LOGICAL_IMM_EXT`: how `andi` and `ori` extend their immediate (R8, D3). -/
inductive ImmExt where
  | sign
  | zero
  deriving DecidableEq, Repr

/-- `SHIFT_SRC`: the field that names the register `sll` and `srl` shift (R8, D4). -/
inductive ShiftSrc where
  | rs
  | rt
  deriving DecidableEq, Repr

/-- The implementation parameters of R8. The source fixes no value of the first three; the last
three default to the source's own behaviour. -/
structure Config where
  /-- `BASE`: the byte address of memory word 0, and the reset PC. -/
  base : Word
  /-- `INSTR_CAP`: the number of words a program image may occupy. -/
  instrCap : Nat
  /-- `DATA_CAP`: the number of further data words. -/
  dataCap : Nat
  /-- `R0_HARDWIRED`: register 0 reads as 0 and ignores writes. -/
  r0Hardwired : Bool := false
  /-- `LOGICAL_IMM_EXT`. -/
  logicalImmExt : ImmExt := .sign
  /-- `SHIFT_SRC`. -/
  shiftSrc : ShiftSrc := .rs
  deriving DecidableEq, Repr

end Sys2Proof
end

