-- ==== Sys2Proof/Machine/Params.lean ====
section
/-!
DEFINITION. What follows from the parameters (spec/00_scope.md R8; spec/10_state.md R31): the size
and the end of the memory, which settings are legal, the register file after reset, and the setting
`State.reset` uses.
-/

namespace Sys2Proof

/-- `MEM_WORDS = INSTR_CAP + DATA_CAP` (R8, R26). -/
def Config.memWords (c : Config) : Nat := c.instrCap + c.dataCap

/-- `TOP = BASE + 4 * MEM_WORDS` (R8), a natural number because it may be `2^32` itself. -/
def Config.top (c : Config) : Nat := c.base.toNat + 4 * c.memWords

/-- The constraints on a parameter setting (R8, D5): `BASE` is a multiple of 4, `INSTR_CAP` is
positive, `TOP <= 2^32`. -/
abbrev Config.wf (c : Config) : Prop :=
  c.base.toNat % 4 = 0 ∧ 1 ≤ c.instrCap ∧ c.top ≤ 2 ^ 32

/-- The register file at simulation start (R31): zero, but for the stack pointer, register 29, which
is `TOP` modulo 2^32. -/
def Config.resetRegs (c : Config) : Vector Word 32 :=
  (Vector.replicate 32 (0 : Word)).set 29 (BitVec.ofNat 32 c.top)

/-- The example configuration EX (R10), the spec's policies at their defaults. DESIGN CHOICE for
`State.reset` alone, unsafe: the spec leaves the values OPEN (notes/assumptions/1.md). -/
def Config.example : Config where
  base := 0x00400000
  instrCap := 1024
  dataCap := 3072

end Sys2Proof
end

