-- ==== Sys2Proof/Machine/State.lean ====
section
/-!
DEFINITION. The state of the block (spec/10_state.md R20 to R32), the stops (spec/60_exceptions.md
R140), the report (spec/40_datapath.md R92), the host's input (R149) and the state after reset (R31).
The snapshot, the decoded instruction and the executor's value exist within one step only (R28,
R32) and are no state.
-/

namespace Sys2Proof.Machine

/-- Memory in the byte view of R46: address and byte pairs, addresses strictly rising, no byte equal
to what an unlisted address reads as (`Memory.wf` in Machine/Ops.lean). -/
abbrev Memory := List Host.Cell

/-- The error of a memory port (R81): the address is outside [BASE, TOP), or in range but no multiple
of 4. No error is `none`. -/
inductive PortError where
  | range
  | align
  deriving DecidableEq, Repr

/-- The four errors that stop a run, with the information each records (R140, R142, R143, R144). -/
inductive ErrorStop where
  /-- The word is no instruction: the word and the PC. -/
  | decodeError (w pc : Word)
  /-- The effective address of a `lw` or `sw` is outside [BASE, TOP): the address and the PC. -/
  | memRangeError (ea pc : Word)
  /-- The effective address of a `lw` or `sw` is in range but no multiple of 4: the address and the
  PC. -/
  | memAlignError (ea pc : Word)
  /-- The PC is no valid address: the PC. -/
  | fetchError (pc : Word)
  deriving DecidableEq, Repr

/-- The six stops (R140): the notice the block gives when a run ends. -/
inductive Stop where
  /-- Clean termination at the zero word, at the PC given (R141). -/
  | halt (pc : Word)
  /-- One of the four errors. -/
  | error (e : ErrorStop)
  /-- The host said stop at a step boundary (R149). -/
  | hostStop
  deriving DecidableEq, Repr

/-- The run status (R30). No instruction can read it (R27). -/
inductive RunStatus where
  | running
  | halted
  | hostStopped
  | faulted (e : ErrorStop)
  deriving DecidableEq, Repr

/-- The per-step report (R92): the new PC, the register written or none, the memory address written
or none. -/
structure Report where
  newPc : Word
  reg : Option Reg
  memAddr : Option Word
  deriving DecidableEq, Repr

/-- What the block outputs at the end of a step: the report of a completed step, or the notice of
the stop (R92, R149). -/
inductive StepOutput where
  | report (r : Report)
  | stop (st : Stop)
  deriving DecidableEq, Repr

/-- The host's answer before a step: continue or stop (R149). -/
inductive HostAnswer where
  | proceed
  | stop
  deriving DecidableEq, Repr

/-- The whole state of the block. -/
structure State where
  /-- The parameter setting (R8). No step changes it. -/
  cfg : Config
  /-- The stored array `X` of R21: the 32 general registers. -/
  regs : Vector Word 32
  /-- The program counter, a byte address (R23). -/
  pc : Word
  /-- The memory array (R26), in the byte view of R46. -/
  mem : Memory
  /-- The run status (R30). -/
  status : RunStatus
  /-- The host's coming answers, the next one first; an exhausted list answers continue for ever
  (R149; notes/assumptions/4.md). -/
  host : List HostAnswer
  /-- The output of the last step: none before the first one (R92, R149; notes/assumptions/5.md). -/
  out : Option StepOutput
  deriving DecidableEq, Repr

/-- Why a step has no next state. -/
inductive Fault where
  /-- Raised by `step` alone, from a status other than `Running`: the run has ended and no further
  step runs (R80, R146, R153; spec/93_implementation_defined.md U5 calls it stuck). It is the spec's
  own stop, so it is safe. -/
  | notRunning (status : RunStatus)
  deriving DecidableEq, Repr

/-- Why an instruction has no meaning in the model. -/
inductive Refusal where
  /-- Raised by `exec` for an instruction the model gives no meaning, by its mnemonic; no arm raises
  it, since every instruction has its meaning. Safe. -/
  | notModelled (mnemonic : String)
  deriving DecidableEq, Repr

/-- The state at simulation start under a parameter setting, before any image is loaded (R31): the
registers zero but the stack pointer, the PC at `BASE`, every memory word zero, `Running`. -/
def State.resetWith (c : Config) : State where
  cfg := c
  regs := c.resetRegs
  pc := c.base
  mem := []
  status := .running
  host := []
  out := none

/-- The machine right after reset, under the example configuration (notes/assumptions/1.md). -/
def State.reset : State := State.resetWith Config.example

end Sys2Proof.Machine
end

