-- ==== Sys2Proof/Machine/Ops.lean ====
section
/-!
DEFINITION. The named operations over memory and registers: the byte view (spec/20_memory.md R46),
addresses (R41, R44, R45), register 0 (spec/10_state.md R21), the commit of a step and its report
(spec/40_datapath.md R90, R92), raising a stop (spec/60_exceptions.md R140, R145), the host's answer
(R149) and the fetch (R82). The block has no trap entry and no trap return (R145, R146): raising a
stop is all it does in place of taking an exception.
-/

namespace Sys2Proof.Machine

/-! ### Memory, byte by byte -/

/-- What an address that is not listed reads as: memory the image does not cover holds zero (R161,
D6; notes/assumptions/6.md). -/
abbrev Memory.unlisted : Byte := 0

/-- The canonical form: addresses strictly rising and no listed byte equal to `unlisted`. -/
abbrev Memory.wf (m : Memory) : Prop :=
  m.Pairwise (fun c d => c.1 < d.1) ∧ ∀ c ∈ m, c.2 ≠ Memory.unlisted

/-- The byte at an address. -/
def Memory.readByte : Memory → Nat → Byte
  | [], _ => Memory.unlisted
  | (k, b) :: rest, a => if k = a then b else Memory.readByte rest a

/-- A cell before the cells `rest`, left out when its byte is what an unlisted address reads as. -/
def Memory.cons (a : Nat) (v : Byte) (rest : Memory) : Memory :=
  if v = Memory.unlisted then rest else (a, v) :: rest

/-- The memory with one byte set, in canonical form. -/
def Memory.writeByte : Memory → Nat → Byte → Memory
  | [], a, v => Memory.cons a v []
  | (k, b) :: rest, a, v =>
    if a < k then Memory.cons a v ((k, b) :: rest)
    else if a = k then Memory.cons a v rest
    else (k, b) :: Memory.writeByte rest a v

/-! ### Memory, word by word (R42, R43, R46) -/

/-- The word whose four bytes start at an address. -/
def Memory.readWord (m : Memory) (a : Nat) : Word :=
  wordOfBytes (m.readByte a) (m.readByte (a + 1)) (m.readByte (a + 2)) (m.readByte (a + 3))

/-- The memory with the four bytes from an address set to those of a word. -/
def Memory.writeWord (m : Memory) (a : Nat) (w : Word) : Memory :=
  (((m.writeByte a (wordByte w 0)).writeByte (a + 1) (wordByte w 1)).writeByte (a + 2)
    (wordByte w 2)).writeByte (a + 3) (wordByte w 3)

/-! ### Addresses (R41) -/

/-- `BASE <=u a` and `a <u TOP`. -/
def State.inRange (s : State) (a : Word) : Bool :=
  decide (s.cfg.base.toNat ≤ a.toNat) && decide (a.toNat < s.cfg.top)

/-- `a[1:0] == 0b00`. -/
def wordAligned (a : Word) : Bool := a.extractLsb' 0 2 == 0#2

/-- `Valid(a)` (R41). -/
def State.validAddr (s : State) (a : Word) : Bool := s.inRange a && wordAligned a

/-- `Index(a) = (a - BASE) >> 2`, of use only when `a` is valid (R41). -/
def State.index (s : State) (a : Word) : Nat := ((a - s.cfg.base) >>> 2).toNat

/-- `M[k]`: memory word `k`, at byte address `BASE + 4k` (R26). -/
def State.memWord (s : State) (k : Nat) : Word := s.mem.readWord (s.cfg.base.toNat + 4 * k)

/-- The error a memory port answers for an address (R81), range before alignment: so R44 says for the
data port; for the fetch port the order is the model's DESIGN CHOICE (notes/assumptions/20.md). -/
def State.portError (s : State) (a : Word) : Option PortError :=
  if !s.inRange a then some .range
  else if !wordAligned a then some .align
  else none

/-- The stop that an error of the data port raises (R44, R143). -/
def State.dataStop (s : State) (ea : Word) : PortError → ErrorStop
  | .range => .memRangeError ea s.pc
  | .align => .memAlignError ea s.pc

/-- The check a data access makes on its effective address (R44, R91; `check` of R87). -/
def State.dataCheck (s : State) (ea : Word) : Option ErrorStop :=
  (s.portError ea).map (s.dataStop ea)

/-! ### Registers (R21) -/

/-- Register 0 under `R0_HARDWIRED`. -/
def Config.discards (c : Config) (r : Reg) : Bool := c.r0Hardwired && r == 0

/-- `read(i)` of R21. -/
def State.readReg (s : State) (r : Reg) : Word :=
  if Config.discards s.cfg r then 0 else s.regs[r.val]

/-- `write(i, v)` of R21, on the stored array. -/
def State.regsWith (s : State) (r : Reg) (v : Word) : Vector Word 32 :=
  if Config.discards s.cfg r then s.regs else s.regs.set r.val v

/-! ### The end of a step -/

/-- The commit of a completed step (R90): the word stored (address and value), the register written
(number and value) and the next PC, all at once, and the step's report (R92). The report names a
register or an address even where the value stays the same, and register 0 too (D20). -/
def State.commit (s : State) (store : Option (Word × Word)) (write : Option (Reg × Word))
    (npc : Word) : State :=
  { s with
    regs := match write with
      | some (r, v) => s.regsWith r v
      | none => s.regs
    pc := npc
    mem := match store with
      | some (a, w) => s.mem.writeWord a.toNat w
      | none => s.mem
    out := some (.report ⟨npc, write.map Prod.fst, store.map Prod.fst⟩) }

/-- The run status after a stop (R140). -/
def Stop.status : Stop → RunStatus
  | .halt _ => .halted
  | .error e => .faulted e
  | .hostStop => .hostStopped

/-- The numeric code of a stop (R140, D11). -/
def Stop.code : Stop → Nat
  | .halt _ => 0
  | .error (.decodeError ..) => 1
  | .error (.memRangeError ..) => 2
  | .error (.memAlignError ..) => 3
  | .error (.fetchError ..) => 4
  | .hostStop => 5

/-- The PC a stop records; the host's stop records none (R140). -/
def Stop.pc : Stop → Option Word
  | .halt pc => some pc
  | .error (.decodeError _ pc) => some pc
  | .error (.memRangeError _ pc) => some pc
  | .error (.memAlignError _ pc) => some pc
  | .error (.fetchError pc) => some pc
  | .hostStop => none

/-- `raise` (R12, R140, R145): the step commits nothing, the status is set, and the stop's notice is
output in place of a report. -/
def State.raise (s : State) (st : Stop) : State :=
  { s with status := st.status, out := some (.stop st) }

/-! ### Before an instruction runs -/

/-- The host's next answer, taken off the list; an exhausted list answers continue (R149). -/
def State.sampleHost (s : State) : HostAnswer × State :=
  match s.host with
  | [] => (.proceed, s)
  | a :: rest => (a, { s with host := rest })

/-- Fetch (R45, R82): the word at the PC, or `FetchError` whichever error the fetch port has. -/
def State.fetch (s : State) : Except ErrorStop Word :=
  match s.portError s.pc with
  | none => .ok (s.mem.readWord s.pc.toNat)
  | some _ => .error (.fetchError s.pc)

/-- Fetch and decode (R82, R83): the instruction at the PC, or the stop the step raises (R91 (1) and
(2)). -/
def State.fetchInstr (s : State) : Except ErrorStop Instr :=
  match s.fetch with
  | .error e => .error e
  | .ok w =>
    match decodeWord w with
    | .ok i => .ok i
    | .error _ => .error (.decodeError w s.pc)

end Sys2Proof.Machine
end

