-- ==== Sys2Proof/Machine/Operands.lean ====
section
/-!
DEFINITION. The operand forms of spec/30_encoding.md R64, the effective address
(spec/43_loadstore.md R132) and the inputs of the next-PC multiplexer (spec/40_datapath.md R85).
All sums are modulo 2^32 (D14).
-/

namespace Sys2Proof.Machine

/-- `simm = sext_32(imm)`. -/
def signExt (imm : BitVec 16) : Word := imm.signExtend 32

/-- `limm`, the immediate of `andi` and `ori`, extended as `LOGICAL_IMM_EXT` says (D3). -/
def logicalImm (c : Config) (imm : BitVec 16) : Word :=
  match c.logicalImmExt with
  | .sign => imm.signExtend 32
  | .zero => imm.zeroExtend 32

/-- The operand of `lui`: `imm ++ 0x0000`. -/
def upperImm (imm : BitVec 16) : Word := imm ++ 0x0000#16

/-- The register `sll` and `srl` shift, as `SHIFT_SRC` says (R102, R103, D4). -/
def shiftReg (c : Config) (rs rt : Reg) : Reg :=
  match c.shiftSrc with
  | .rs => rs
  | .rt => rt

/-- The effective address of `lw` and `sw`: base register plus displacement (R132). -/
def State.effAddr (s : State) (rs : Reg) (imm : BitVec 16) : Word := s.readReg rs + signExt imm

/-- `seq = PC + 4` (R85). -/
def seqPc (pc : Word) : Word := pc + 4

/-- `jump = seq[31:28] ++ target ++ 0b00` (R85, C2). -/
def jumpTarget (pc : Word) (target : BitVec 26) : Word :=
  (seqPc pc).extractLsb' 28 4 ++ target ++ 0b00#2

/-- `branch = seq + (sext_32(imm) << 2)` (R85, R86). -/
def branchTarget (pc : Word) (imm : BitVec 16) : Word := seqPc pc + signExt imm <<< 2

end Sys2Proof.Machine
end

