-- ==== Sys2Proof/Machine/Alu.lean ====
section
/-!
DEFINITION. The ALU family (spec/41_alu.md R100 to R111): each instruction reads its operands from
the state before the step, writes one register and goes on at PC + 4. No stop, no flag, no memory.
-/

namespace Sys2Proof.Machine

/-- The end of every ALU instruction: register `r` gets `v`, the PC advances (R88, R89, R90). -/
def State.writeResult (s : State) (r : Reg) (v : Word) : State :=
  s.commit none (some (r, v)) (seqPc s.pc)

/-- R102. -/
def execSll (rs rt rd : Reg) (shamt : BitVec 5) (s : State) : Host.Outcome State Fault Refusal :=
  .next (s.writeResult rd (s.readReg (shiftReg s.cfg rs rt) <<< shamt.toNat))

/-- R103. -/
def execSrl (rs rt rd : Reg) (shamt : BitVec 5) (s : State) : Host.Outcome State Fault Refusal :=
  .next (s.writeResult rd (s.readReg (shiftReg s.cfg rs rt) >>> shamt.toNat))

/-- R100; shamt is ignored (R70). -/
def execAddu (rs rt rd : Reg) (_shamt : BitVec 5) (s : State) : Host.Outcome State Fault Refusal :=
  .next (s.writeResult rd (s.readReg rs + s.readReg rt))

/-- R101; shamt is ignored (R70). -/
def execSubu (rs rt rd : Reg) (_shamt : BitVec 5) (s : State) : Host.Outcome State Fault Refusal :=
  .next (s.writeResult rd (s.readReg rs - s.readReg rt))

/-- R104; shamt is ignored (R70). -/
def execAnd (rs rt rd : Reg) (_shamt : BitVec 5) (s : State) : Host.Outcome State Fault Refusal :=
  .next (s.writeResult rd (s.readReg rs &&& s.readReg rt))

/-- R105; shamt is ignored (R70). -/
def execOr (rs rt rd : Reg) (_shamt : BitVec 5) (s : State) : Host.Outcome State Fault Refusal :=
  .next (s.writeResult rd (s.readReg rs ||| s.readReg rt))

/-- R106; shamt is ignored (R70). -/
def execSlt (rs rt rd : Reg) (_shamt : BitVec 5) (s : State) : Host.Outcome State Fault Refusal :=
  .next (s.writeResult rd (setLess (s.readReg rs) (s.readReg rt)))

/-- R107. -/
def execAddiu (rs rt : Reg) (imm : BitVec 16) (s : State) : Host.Outcome State Fault Refusal :=
  .next (s.writeResult rt (s.readReg rs + signExt imm))

/-- R108. -/
def execAndi (rs rt : Reg) (imm : BitVec 16) (s : State) : Host.Outcome State Fault Refusal :=
  .next (s.writeResult rt (s.readReg rs &&& logicalImm s.cfg imm))

/-- R109. -/
def execOri (rs rt : Reg) (imm : BitVec 16) (s : State) : Host.Outcome State Fault Refusal :=
  .next (s.writeResult rt (s.readReg rs ||| logicalImm s.cfg imm))

/-- R110; rs is ignored (R70). -/
def execLui (_rs rt : Reg) (imm : BitVec 16) (s : State) : Host.Outcome State Fault Refusal :=
  .next (s.writeResult rt (upperImm imm))

end Sys2Proof.Machine
end

