-- ==== Sys2Proof/Machine/Control.lean ====
section
/-!
DEFINITION. The control-transfer family (spec/42_control.md R120 to R128): no delay slot (R125), no
check of the target (R126); only `jal` writes a register, the link register 31.
-/

namespace Sys2Proof.Machine

/-- R120: the PC gets rs; rt, rd and shamt are ignored (R70). -/
def execJr (rs _rt _rd : Reg) (_shamt : BitVec 5) (s : State) : Host.Outcome State Fault Refusal :=
  .next (s.commit none none (s.readReg rs))

/-- R121. -/
def execJ (target : BitVec 26) (s : State) : Host.Outcome State Fault Refusal :=
  .next (s.commit none none (jumpTarget s.pc target))

/-- R122: the link value is PC + 4. -/
def execJal (target : BitVec 26) (s : State) : Host.Outcome State Fault Refusal :=
  .next (s.commit none (some (31, seqPc s.pc)) (jumpTarget s.pc target))

/-- R123. -/
def execBeq (rs rt : Reg) (imm : BitVec 16) (s : State) : Host.Outcome State Fault Refusal :=
  .next (s.commit none none
    (if sameWord (s.readReg rs) (s.readReg rt) then branchTarget s.pc imm else seqPc s.pc))

/-- R124. -/
def execBne (rs rt : Reg) (imm : BitVec 16) (s : State) : Host.Outcome State Fault Refusal :=
  .next (s.commit none none
    (if sameWord (s.readReg rs) (s.readReg rt) then seqPc s.pc else branchTarget s.pc imm))

end Sys2Proof.Machine
end

