-- ==== Sys2Proof/Machine/Halt.lean ====
section
/-!
DEFINITION. The zero word, the halt sentinel (spec/30_encoding.md R68; spec/60_exceptions.md R141).
-/

namespace Sys2Proof.Machine

/-- R141: clean termination. The step commits nothing and the PC keeps the address of the zero word. -/
def execHalt (s : State) : Host.Outcome State Fault Refusal :=
  .next (s.raise (.halt s.pc))

end Sys2Proof.Machine
end

