-- ==== Sys2Proof/Machine/LoadStore.lean ====
section
/-!
DEFINITION. The load/store family (spec/43_loadstore.md R130 to R133). The effective address is
checked (spec/20_memory.md R44) before anything is read or written; a check that fails stops the run
with the state as it was (spec/60_exceptions.md R143).
-/

namespace Sys2Proof.Machine

/-- R130. -/
def execLw (rs rt : Reg) (imm : BitVec 16) (s : State) : Host.Outcome State Fault Refusal :=
  match s.dataCheck (s.effAddr rs imm) with
  | some e => .next (s.raise (.error e))
  | none =>
    .next (s.commit none (some (rt, s.mem.readWord (s.effAddr rs imm).toNat)) (seqPc s.pc))

/-- R131. -/
def execSw (rs rt : Reg) (imm : BitVec 16) (s : State) : Host.Outcome State Fault Refusal :=
  match s.dataCheck (s.effAddr rs imm) with
  | some e => .next (s.raise (.error e))
  | none => .next (s.commit (some (s.effAddr rs imm, s.readReg rt)) none (seqPc s.pc))

end Sys2Proof.Machine
end

