-- ==== Sys2Proof/Machine/Step.lean ====
section
/-!
DEFINITION. One step of the sequencer (spec/40_datapath.md R80, R91; spec/60_exceptions.md R149): the
host's answer, then fetch and decode, then the instruction.
-/

namespace Sys2Proof.Machine

/-- One step. A stop of any kind is a next state that records it (notes/assumptions/3.md); from a
status other than `Running` no step runs (R146, R153). -/
def step (s : State) : Host.Outcome State Fault Refusal :=
  if s.status = .running then
    match s.sampleHost with
    | (.stop, s') => .next (s'.raise .hostStop)
    | (.proceed, s') =>
      match s'.fetchInstr with
      | .error e => .next (s'.raise (.error e))
      | .ok i => exec i s'
  else .fault (.notRunning s.status)

/-- The state with the instruction word `w` (its low `nbits` bits) stored at the PC, where `step`
fetches. A PC that is no valid address has no word, and the state is then left as it is
(notes/assumptions/11.md). -/
def State.withFetchWord (s : State) (nbits w : Nat) : State :=
  if s.validAddr s.pc then
    { s with mem := s.mem.writeWord s.pc.toNat (BitVec.ofNat 32 (w % 2 ^ nbits)) }
  else s

end Sys2Proof.Machine
end

