-- ==== Sys2Proof/Machine/Datapath.lean ====
section
/-!
DEFINITION. The components of the block as spec/40_datapath.md R81 to R89 and R94 give them (decode's
snapshot, executor, next-PC multiplexer, memory interface and stage, writeback arbiter) and R80's
sequence through them. `exec` is written instruction by instruction from the instruction rules; this
is the other description of the same step, and the two are stated to be equal.
-/

namespace Sys2Proof.Machine

/-- `rVals`, the source register values read at decode (R28): vs and vt for the R and I forms, vd for
the R form too, nothing for the J form. -/
structure Snapshot where
  vs : Option Word
  vt : Option Word
  vd : Option Word
  deriving DecidableEq, Repr

/-- Decode reads the snapshot from the register file (R83). -/
def State.snapshot (s : State) : Instr → Snapshot
  | .sll rs rt rd _ | .srl rs rt rd _ | .jr rs rt rd _ | .addu rs rt rd _ | .subu rs rt rd _
  | .and rs rt rd _ | .or rs rt rd _ | .slt rs rt rd _ =>
    ⟨some (s.readReg rs), some (s.readReg rt), some (s.readReg rd)⟩
  | .beq rs rt _ | .bne rs rt _ | .addiu rs rt _ | .andi rs rt _ | .ori rs rt _ | .lui rs rt _
  | .lw rs rt _ | .sw rs rt _ => ⟨some (s.readReg rs), some (s.readReg rt), none⟩
  | .j _ | .jal _ | .halt => ⟨none, none, none⟩

/-- The operand of a shift, from the snapshot (R84's `src`). -/
def Snapshot.shiftSource (snap : Snapshot) (c : Config) : Option Word :=
  match c.shiftSrc with
  | .rs => snap.vs
  | .rt => snap.vt

/-- The executor (R84): the one value computed, none for `j`, `beq` and `bne` (R94). -/
def executor (c : Config) (i : Instr) (snap : Snapshot) (pc : Word) : Option Word :=
  match i with
  | .addu .. => do return (← snap.vs) + (← snap.vt)
  | .subu .. => do return (← snap.vs) - (← snap.vt)
  | .sll _ _ _ shamt => do return (← snap.shiftSource c) <<< shamt.toNat
  | .srl _ _ _ shamt => do return (← snap.shiftSource c) >>> shamt.toNat
  | .and .. => do return (← snap.vs) &&& (← snap.vt)
  | .or .. => do return (← snap.vs) ||| (← snap.vt)
  | .slt .. => do return setLess (← snap.vs) (← snap.vt)
  | .jr .. => snap.vs
  | .addiu _ _ imm => do return (← snap.vs) + signExt imm
  | .andi _ _ imm => do return (← snap.vs) &&& logicalImm c imm
  | .ori _ _ imm => do return (← snap.vs) ||| logicalImm c imm
  | .lui _ _ imm => some (upperImm imm)
  | .lw _ _ imm | .sw _ _ imm => do return (← snap.vs) + signExt imm
  | .jal _ => some (pc + 4)
  | .j _ | .beq .. | .bne .. | .halt => none

/-- The next-PC multiplexer (R85): the sequential PC first, then the override. -/
def nextPc (i : Instr) (snap : Snapshot) (pc : Word) (v : Option Word) : Word :=
  let seq := seqPc pc
  match i with
  | .j target | .jal target => jumpTarget pc target
  | .jr .. => v.getD seq
  | .beq _ _ imm => if snap.vs = snap.vt then branchTarget pc imm else seq
  | .bne _ _ imm => if snap.vs ≠ snap.vt then branchTarget pc imm else seq
  | .sll .. | .srl .. | .addu .. | .subu .. | .and .. | .or .. | .slt .. | .addiu .. | .andi ..
  | .ori .. | .lui .. | .lw .. | .sw .. | .halt => seq

/-- What one port of the memory interface puts out (R81): the word read, if any, and its error. -/
structure PortOutput where
  word : Option Word
  error : Option PortError
  deriving DecidableEq, Repr

/-- A port that reads at an address: no read takes place where there is an error (R42), and the port
then puts out no word, a DESIGN CHOICE (notes/assumptions/20.md). -/
def State.readPort (s : State) (a : Word) : PortOutput :=
  ⟨if s.portError a = none then some (s.mem.readWord a.toNat) else none, s.portError a⟩

/-- The data port: it reads where the write enable is off. DESIGN CHOICE (notes/assumptions/20.md): it
puts out no word where it is to write, and is idle, with no word and no error, where no address is
given. The word to write is taken by the commit (R90). -/
def State.dataPort (s : State) (addr : Option Word) (writeEnable : Bool) : PortOutput :=
  match addr with
  | none => ⟨none, none⟩
  | some a => if writeEnable then ⟨none, s.portError a⟩ else s.readPort a

/-- The outputs of the memory interface (R81): fetch word and read word, each with its port's error. -/
structure MemoryOutputs where
  fetch : PortOutput
  data : PortOutput
  deriving DecidableEq, Repr

/-- The memory interface (R81). -/
def State.memoryInterface (s : State) (fetchAddr : Word) (dataAddr : Option Word)
    (writeEnable : Bool) : MemoryOutputs :=
  ⟨s.readPort fetchAddr, s.dataPort dataAddr writeEnable⟩

/-- What the memory stage gives: the step's value and the word to store, if any (R87). -/
structure MemResult where
  value : Option Word
  store : Option (Word × Word)
  deriving DecidableEq, Repr

/-- The memory stage (R87): `lw` reads, `sw` is to write, the executor's value passes through for
the others. -/
def State.memStage (s : State) (i : Instr) (v : Option Word) (snap : Snapshot) :
    Except ErrorStop MemResult :=
  match i, v with
  | .lw .., some ea =>
    let port := (s.memoryInterface s.pc (some ea) false).data
    match port.error with
    | some e => .error (s.dataStop ea e)
    | none => .ok ⟨port.word, none⟩
  | .sw .., some ea =>
    match (s.memoryInterface s.pc (some ea) true).data.error with
    | some e => .error (s.dataStop ea e)
    | none => .ok ⟨none, snap.vt.map (ea, ·)⟩
  | _, v => .ok ⟨v, none⟩

/-- The writeback arbiter's choice of destination (R88). -/
def dest : Instr → Option Reg
  | .sll _ _ rd _ | .srl _ _ rd _ | .addu _ _ rd _ | .subu _ _ rd _ | .and _ _ rd _
  | .or _ _ rd _ | .slt _ _ rd _ => some rd
  | .addiu _ rt _ | .andi _ rt _ | .ori _ rt _ | .lui _ rt _ | .lw _ rt _ => some rt
  | .jal _ => some 31
  | .jr .. | .j _ | .beq .. | .bne .. | .sw .. | .halt => none

/-- The writeback (R89): the destination and the memory stage's value. -/
def writeback (i : Instr) (value : Option Word) : Option (Reg × Word) := do
  return (← dest i, ← value)

/-- R80's sequence after decode: snapshot, executor, next PC, memory stage, writeback, commit. -/
def State.runDatapath (s : State) (i : Instr) : State :=
  match i with
  | .halt => s.raise (.halt s.pc)
  | i =>
    let snap := s.snapshot i
    let v := executor s.cfg i snap s.pc
    let npc := nextPc i snap s.pc v
    match s.memStage i v snap with
    | .error e => s.raise (.error e)
    | .ok m => s.commit m.store (writeback i m.value) npc

end Sys2Proof.Machine
end

