-- ==== Sys2Proof/Machine/Loader.lean ====
section
/-!
DEFINITION. How a program comes into the machine: the loader's contract and the start of a run
(spec/70_reset_and_hazards.md R160, R161; spec/60_exceptions.md R149; spec/20_memory.md R46). The
loader is an external collaborator; only what it does to the block is modelled.
-/

namespace Sys2Proof.Machine

/-- The words of an image file: big-endian, four bytes each (R46, R161). A file that does not end at
a word's end is no sequence of words and is refused (notes/assumptions/12.md). -/
def imageWords : List Byte → Option (List Word)
  | [] => some []
  | b0 :: b1 :: b2 :: b3 :: rest => (imageWords rest).map (wordOfBytes b0 b1 b2 b3 :: ·)
  | _ => none

/-- The words stored one after another from an address. -/
def Memory.writeWords : Memory → Nat → List Word → Memory
  | m, _, [] => m
  | m, a, w :: rest => Memory.writeWords (m.writeWord a w) (a + 4) rest

/-- The load (R161): image word k becomes memory word k; an image longer than `INSTR_CAP` words is
rejected. -/
def State.load (s : State) (image : List Word) : Option State :=
  if image.length ≤ s.cfg.instrCap then
    some { s with mem := s.mem.writeWords s.cfg.base.toNat image }
  else none

/-- The state in which a run of an image starts (R160, R31). -/
def State.boot (c : Config) (image : List Word) : Option State := (State.resetWith c).load image

end Sys2Proof.Machine
end

