-- ==== Sys2Proof/Machine/Run.lean ====
section
/-!
DEFINITION. A run as the sequencer drives it (spec/40_datapath.md R80; spec/60_exceptions.md R154):
steps until the first stop, and what the host is given after each (R149).
-/

namespace Sys2Proof.Machine

/-- The state after at most `n` steps: the run goes no further than its first stop. -/
def runFor : Nat → State → State
  | 0, s => s
  | n + 1, s =>
    match step s with
    | .next t => runFor n t
    | .fault _ => s
    | .refused _ => s

/-- What the block gives the host over at most `n` steps: a report for each completed step and the
notice of the stop that ends the run (R92, R149). -/
def outputsOf : Nat → State → List StepOutput
  | 0, _ => []
  | n + 1, s =>
    match step s with
    | .next t => t.out.toList ++ outputsOf n t
    | .fault _ => []
    | .refused _ => []

end Sys2Proof.Machine
end

