-- ==== Sys2Proof/Safety.lean ====
section
/-!
DEFINITION. What the claims call a good state, a safe run and a successful one: the verdict of a run
(spec/60_exceptions.md R154), a state with no error (R140), and the invariant every step keeps.
-/

namespace Sys2Proof.Machine

/-- How a run has ended (R154). -/
inductive Verdict where
  /-- The run goes on. -/
  | pending
  /-- The run ended with `Halt`. -/
  | success
  /-- The run ended in error. -/
  | failure
  /-- The host stopped the run. -/
  | noVerdict
  deriving DecidableEq, Repr

/-- The verdict a run status stands for (R154). -/
def RunStatus.verdict : RunStatus → Verdict
  | .running => .pending
  | .halted => .success
  | .faulted _ => .failure
  | .hostStopped => .noVerdict

/-- A safe state: no error has stopped the run. A safe run is one whose every state is safe. -/
def State.Safe (s : State) : Prop := s.status.verdict ≠ .failure

/-- Every listed byte lies in the memory array (R26, R41). -/
abbrev State.memInArray (s : State) : Prop :=
  ∀ c ∈ s.mem, s.cfg.base.toNat ≤ c.1 ∧ c.1 < s.cfg.top

/-- The status and the PC agree with the last output: running after a report, whose new PC is the
PC; ended as the stop says after a stop, whose recorded PC is the PC (R92, R140, R145). -/
abbrev State.outAgrees (s : State) : Prop :=
  match s.out with
  | none => s.status = .running
  | some (.report r) => s.status = .running ∧ r.newPc = s.pc
  | some (.stop st) => s.status = st.status ∧ (st.pc = none ∨ st.pc = some s.pc)

/-- The invariant: a legal parameter setting (R8), memory in canonical form and inside the array
(R26), a hard-wired register 0 that stores zero (R21), and a status that agrees with the output. -/
structure State.Inv (s : State) : Prop where
  cfg_wf : s.cfg.wf
  mem_wf : s.mem.wf
  mem_in_array : s.memInArray
  reg_zero : s.cfg.r0Hardwired = true → s.regs[0] = 0
  out_agrees : s.outAgrees

end Sys2Proof.Machine
end

