-- ==== Sys2Proof/Certificates/Slice0/Obligations.lean ====
section
/-!
DEFINITION. The statements for the provers. The effects below name what a step leaves in every part
of the state, so each result statement is its own frame; the `Obligations` cite the rule of spec/
they formalise.
-/

namespace Sys2Proof.Claims

open Sys2Proof.Machine

/-! ### What a step leaves, part by part -/

/-- The parts no instruction writes and a completed one leaves as they are: the parameters, the run
status and the host's answers still to come. -/
structure Steady (s t : State) : Prop where
  cfg : t.cfg = s.cfg
  status : t.status = s.status
  host : t.host = s.host

/-- Every register reads as before. -/
def SameRegisters (s t : State) : Prop := ∀ q, t.readReg q = s.readReg q

/-- Every byte of memory reads as before. -/
def SameMemory (s t : State) : Prop := ∀ a, t.mem.readByte a = s.mem.readByte a

/-- The whole effect of an instruction that writes register `r` with `v` and goes on at `npc`: `r`
reads as `v`, or as 0 where it is the hard-wired register 0 (R21, the spec's decision D2), every other
register and every byte of memory as before, and the report names the new PC and `r` (R92), even
where that is register 0 or the value stays the same (the spec's decision D20). -/
structure WritesRegister (s t : State) (r : Reg) (v npc : Word) : Prop where
  written : t.readReg r = if s.cfg.r0Hardwired = true ∧ r = 0 then 0 else v
  others : ∀ q, q ≠ r → t.readReg q = s.readReg q
  memory : SameMemory s t
  pc : t.pc = npc
  report : t.out = some (.report ⟨npc, some r, none⟩)
  steady : Steady s t

/-- The whole effect of an instruction that writes nothing but the PC. -/
structure WritesPcOnly (s t : State) (npc : Word) : Prop where
  registers : SameRegisters s t
  memory : SameMemory s t
  pc : t.pc = npc
  report : t.out = some (.report ⟨npc, none, none⟩)
  steady : Steady s t

/-- The whole effect of a store of `v` at `ea`: the word there reads as `v` (where the memory before
is in canonical form, an invariant of the model), every byte outside its four and every register as
before, and the report names the address (R92). -/
structure StoresWord (s t : State) (ea v npc : Word) : Prop where
  stored : s.mem.wf → t.mem.readWord ea.toNat = v
  others : ∀ a, a < ea.toNat ∨ ea.toNat + 4 ≤ a → t.mem.readByte a = s.mem.readByte a
  registers : SameRegisters s t
  pc : t.pc = npc
  report : t.out = some (.report ⟨npc, none, some ea⟩)
  steady : Steady s t

/-- The whole effect of a stop: registers, memory and PC as before (R145, D24), the status set (R140,
D12), the notice output in place of a report (R92, D18). -/
structure Stops (s t : State) (st : Stop) (status : RunStatus) : Prop where
  registers : SameRegisters s t
  memory : t.mem = s.mem
  pc : t.pc = s.pc
  status : t.status = status
  notice : t.out = some (.stop st)
  cfg : t.cfg = s.cfg
  host : t.host = s.host

/-- `[BASE, TOP)` holds the address. -/
def InArray (s : State) (a : Word) : Prop := s.cfg.base.toNat ≤ a.toNat ∧ a.toNat < s.cfg.top

/-- `Valid(a)` of R41. -/
def Valid (s : State) (a : Word) : Prop := InArray s a ∧ a.extractLsb' 0 2 = 0b00#2

/-- The state a step hands to the instruction: the host's answer has been taken off the list. -/
def AfterAnswer (s : State) : State := { s with host := s.host.tail }

/-- The run goes on and the host's next answer is continue. -/
def Proceeds (s : State) : Prop := s.status = .running ∧ s.host.head? ≠ some .stop

/-- What a memory port that reads at `a` puts out (R81): a range error outside the array, an alignment
error inside it, and otherwise no error and the word there. With an error no read takes place (R42);
that the port then puts out no word is the model's choice (notes/assumptions/20.md). -/
structure ReadsOrErrs (s : State) (a : Word) (port : PortOutput) : Prop where
  range : port.error = some .range ↔ ¬ InArray s a
  align : port.error = some .align ↔ InArray s a ∧ ¬ Valid s a
  none : port.error = none ↔ Valid s a
  reads : Valid s a → port.word = some (s.mem.readWord a.toNat)
  silent : ¬ Valid s a → port.word = Option.none

/-- R126: where the PC is no valid address, the next step stops with `FetchError(pc)`. -/
def NextFetchChecks (t : State) : Prop :=
  Proceeds t → ¬ Valid t t.pc →
    ∃ u, step t = .next u ∧
      Stops (AfterAnswer t) u (.error (.fetchError t.pc)) (.faulted (.fetchError t.pc))

/-! ### The encodings of R66, with the fields of R61 to R63 -/

/-- Every word of an R-form row decodes to its instruction, with its fields. -/
def DecodesRForm (pattern : Word) (mk : Reg → Reg → Reg → BitVec 5 → Instr) : Prop :=
  ∀ w : Word, w &&& 0xFC00003F#32 = pattern → w ≠ 0 →
    decodeWord w = .ok (mk (w.extractLsb' 21 5).toFin (w.extractLsb' 16 5).toFin
      (w.extractLsb' 11 5).toFin (w.extractLsb' 6 5))

/-- Every word of an I-form row decodes to its instruction, with its fields. -/
def DecodesIForm (pattern : Word) (mk : Reg → Reg → BitVec 16 → Instr) : Prop :=
  ∀ w : Word, w &&& 0xFC000000#32 = pattern →
    decodeWord w = .ok (mk (w.extractLsb' 21 5).toFin (w.extractLsb' 16 5).toFin
      (w.extractLsb' 0 16))

/-- Every word of a J-form row decodes to its instruction, with its target. -/
def DecodesJForm (pattern : Word) (mk : BitVec 26 → Instr) : Prop :=
  ∀ w : Word, w &&& 0xFC000000#32 = pattern → decodeWord w = .ok (mk (w.extractLsb' 0 26))

/-- The immediate of `andi` and `ori` (R108: `limm`). -/
def Limm (s : State) (imm : BitVec 16) : Word :=
  if s.cfg.logicalImmExt = .sign then imm.signExtend 32 else imm.setWidth 32

/-- The register value `sll` and `srl` shift (R102: `src`). -/
def ShiftSource (s : State) (rs rt : Reg) : Word :=
  if s.cfg.shiftSrc = .rs then s.readReg rs else s.readReg rt

/-- R88's choice of destination: rd of an R form but `jr`, rt of an I form but `sw`, `beq` and `bne`,
register 31 of `jal`, none of the others. -/
def Destination : Instr → Option Reg
  | .sll _ _ rd _ => some rd
  | .srl _ _ rd _ => some rd
  | .addu _ _ rd _ => some rd
  | .subu _ _ rd _ => some rd
  | .and _ _ rd _ => some rd
  | .or _ _ rd _ => some rd
  | .slt _ _ rd _ => some rd
  | .addiu _ rt _ => some rt
  | .andi _ rt _ => some rt
  | .ori _ rt _ => some rt
  | .lui _ rt _ => some rt
  | .lw _ rt _ => some rt
  | .jal _ => some 31
  | .jr .. => none
  | .j _ => none
  | .beq .. => none
  | .bne .. => none
  | .sw .. => none
  | .halt => none

/-- The 18 rows of R66's table. -/
def InstructionRows : List OpcodeRow := opcodeTable.take 18

end Sys2Proof.Claims

open Sys2Proof Sys2Proof.Machine Sys2Proof.Claims

/-! ### Encoding -/

/-- R66 and spec/95_test_vectors.md: words written out from the encodings decode to their
instruction. -/
def Obligations.SampleWordsDecode : Prop :=
  decodeWord 0b00000001001010100100000000100001#32 = .ok (.addu 9 10 8 0) ∧
  decodeWord 0b00000001001010010100000100000000#32 = .ok (.sll 9 9 8 4) ∧
  decodeWord 0b00000011111000000000000000001000#32 = .ok (.jr 31 0 0 0) ∧
  decodeWord 0b00001100000100000000000000000100#32 = .ok (.jal 0x100004) ∧
  decodeWord 0b00010101000010011111111111111101#32 = .ok (.bne 8 9 0xFFFD) ∧
  decodeWord 0b00100101001010001111111111111111#32 = .ok (.addiu 9 8 0xFFFF) ∧
  decodeWord 0b10101101001010000000000000000000#32 = .ok (.sw 9 8 0) ∧
  decodeWord 0#32 = .ok .halt

/-- Decoding the word of any well-formed instruction gives it back, with every operand at every value
the encoding admits: as a word, from a byte stream, and through the table's numbering (R60 to R68,
R75). -/
def Obligations.DecodeOfEncode : Prop :=
  ∀ i : Instr, i.WellFormed →
    decodeWord (encode i) = .ok i ∧
    (∀ rest, decodeBytes (wordBytes (encode i) ++ rest) = .ok (i, rest)) ∧
    decodeTableWord 32 (encode i).toNat = some i

/-- A word that decodes is the word of the instruction it decodes to, which is well-formed: so no two
words decode to one instruction, and no bit of a word is dropped. -/
def Obligations.EncodeOfDecode : Prop :=
  ∀ (w : Word) (i : Instr), decodeWord w = .ok i → i.WellFormed ∧ encode i = w

/-- R66: a non-zero word is an instruction exactly when it matches a row of the table, and then it
decodes to that row's instruction and matches no other row. -/
def Obligations.WordsMatchTheirTableRow : Prop :=
  ∀ w : Word, w ≠ 0 →
    (∀ i, decodeWord w = .ok i →
      opcodeRow i ∈ InstructionRows ∧ w &&& (opcodeRow i).mask = (opcodeRow i).pattern) ∧
    (∀ row ∈ InstructionRows, w &&& row.mask = row.pattern →
      ∃ i, decodeWord w = .ok i ∧ opcodeRow i = row)

/-- R69: a non-zero word matches none of the 18 patterns exactly when its opcode is outside the eleven
or its opcode is 0 and its funct outside the eight; such a word decodes to no instruction, and a fetch
of it raises `DecodeError` with the word and the PC. -/
def Obligations.OtherWordsAreIllegal : Prop :=
  ∀ w : Word, w ≠ 0 →
    ((∀ row ∈ InstructionRows, w &&& row.mask ≠ row.pattern) ↔
      w.extractLsb' 26 6 ∉ [0x00#6, 0x02#6, 0x03#6, 0x04#6, 0x05#6, 0x09#6, 0x0c#6, 0x0d#6, 0x0f#6,
        0x23#6, 0x2b#6] ∨
      w.extractLsb' 26 6 = 0x00#6 ∧
        w.extractLsb' 0 6 ∉ [0x00#6, 0x02#6, 0x08#6, 0x21#6, 0x23#6, 0x24#6, 0x25#6, 0x2a#6]) ∧
    ((∀ row ∈ InstructionRows, w &&& row.mask ≠ row.pattern) →
      (∀ i, decodeWord w ≠ .ok i) ∧
      ∀ s : State, s.fetch = .ok w → s.fetchInstr = .error (.decodeError w s.pc))

/-- R68: the zero word, and it alone, is the halt sentinel; any other word of the `sll` pattern is an
ordinary `sll`; and the sentinel's effect is the `Halt` stop. -/
def Obligations.ZeroWordIsTheSentinel : Prop :=
  (∀ w : Word, decodeWord w = .ok .halt ↔ w = 0) ∧
  DecodesRForm 0x00000000 .sll ∧
  decodeWord 0x00000040 = .ok (.sll 0 0 0 1) ∧
  ∀ s : State, ∃ t, exec .halt s = .next t ∧ Stops s t (.halt s.pc) .halted

/-- R70: fields the instruction does not use do not change the result. -/
def Obligations.UnusedFieldsDoNotMatter : Prop :=
  ∀ (s : State) (rs rt rd rs' rt' rd' : Reg) (sh sh' : BitVec 5) (imm : BitVec 16),
    exec (.addu rs rt rd sh) s = exec (.addu rs rt rd sh') s ∧
    exec (.subu rs rt rd sh) s = exec (.subu rs rt rd sh') s ∧
    exec (.and rs rt rd sh) s = exec (.and rs rt rd sh') s ∧
    exec (.or rs rt rd sh) s = exec (.or rs rt rd sh') s ∧
    exec (.slt rs rt rd sh) s = exec (.slt rs rt rd sh') s ∧
    exec (.jr rs rt rd sh) s = exec (.jr rs rt' rd' sh') s ∧
    exec (.lui rs rt imm) s = exec (.lui rs' rt imm) s ∧
    (s.cfg.shiftSrc = .rs →
      exec (.sll rs rt rd sh) s = exec (.sll rs rt' rd sh) s ∧
      exec (.srl rs rt rd sh) s = exec (.srl rs rt' rd sh) s) ∧
    (s.cfg.shiftSrc = .rt →
      exec (.sll rs rt rd sh) s = exec (.sll rs' rt rd sh) s ∧
      exec (.srl rs rt rd sh) s = exec (.srl rs' rt rd sh) s)

/-! ### The ALU family: encoding, completion, result and frame -/

/-- R100, with R21 and R92 for the destination and the report. The report clause rests on D20, the
hard-wired register 0 on D2 (notes/assumptions/17.md, 2.md). -/
def Obligations.AdduAddsAndWraps : Prop :=
  DecodesRForm 0x00000021 .addu ∧
  ∀ (rs rt rd : Reg) (shamt : BitVec 5) (s : State), ∃ t, exec (.addu rs rt rd shamt) s = .next t ∧
    WritesRegister s t rd (s.readReg rs + s.readReg rt) (s.pc + 4)

/-- R101, with R21 and R92 for the destination and the report. The report clause rests on D20, the
hard-wired register 0 on D2 (notes/assumptions/17.md, 2.md). -/
def Obligations.SubuSubtractsAndWraps : Prop :=
  DecodesRForm 0x00000023 .subu ∧
  ∀ (rs rt rd : Reg) (shamt : BitVec 5) (s : State), ∃ t, exec (.subu rs rt rd shamt) s = .next t ∧
    WritesRegister s t rd (s.readReg rs - s.readReg rt) (s.pc + 4)

/-- R102, with R21 and R92 for the destination and the report. The report clause rests on D20, the
hard-wired register 0 on D2 (notes/assumptions/17.md, 2.md). The source register is D4's. -/
def Obligations.SllShiftsLeft : Prop :=
  DecodesRForm 0x00000000 .sll ∧ decodeWord 0 = .ok .halt ∧
  ∀ (rs rt rd : Reg) (shamt : BitVec 5) (s : State), ∃ t, exec (.sll rs rt rd shamt) s = .next t ∧
    WritesRegister s t rd (ShiftSource s rs rt <<< shamt.toNat) (s.pc + 4)

/-- R103, with R21 and R92 for the destination and the report. The report clause rests on D20, the
hard-wired register 0 on D2 (notes/assumptions/17.md, 2.md). The source register is D4's. -/
def Obligations.SrlShiftsRightLogically : Prop :=
  DecodesRForm 0x00000002 .srl ∧
  ∀ (rs rt rd : Reg) (shamt : BitVec 5) (s : State), ∃ t, exec (.srl rs rt rd shamt) s = .next t ∧
    WritesRegister s t rd (ShiftSource s rs rt >>> shamt.toNat) (s.pc + 4)

/-- R104, with R21 and R92 for the destination and the report. The report clause rests on D20, the
hard-wired register 0 on D2 (notes/assumptions/17.md, 2.md). -/
def Obligations.AndIsBitwise : Prop :=
  DecodesRForm 0x00000024 .and ∧
  ∀ (rs rt rd : Reg) (shamt : BitVec 5) (s : State), ∃ t, exec (.and rs rt rd shamt) s = .next t ∧
    WritesRegister s t rd (s.readReg rs &&& s.readReg rt) (s.pc + 4)

/-- R105, with R21 and R92 for the destination and the report. The report clause rests on D20, the
hard-wired register 0 on D2 (notes/assumptions/17.md, 2.md). -/
def Obligations.OrIsBitwise : Prop :=
  DecodesRForm 0x00000025 .or ∧
  ∀ (rs rt rd : Reg) (shamt : BitVec 5) (s : State), ∃ t, exec (.or rs rt rd shamt) s = .next t ∧
    WritesRegister s t rd (s.readReg rs ||| s.readReg rt) (s.pc + 4)

/-- R106, with R21 and R92 for the destination and the report. The report clause rests on D20, the
hard-wired register 0 on D2 (notes/assumptions/17.md, 2.md). -/
def Obligations.SltComparesSigned : Prop :=
  DecodesRForm 0x0000002A .slt ∧
  ∀ (rs rt rd : Reg) (shamt : BitVec 5) (s : State), ∃ t, exec (.slt rs rt rd shamt) s = .next t ∧
    WritesRegister s t rd (if (s.readReg rs).slt (s.readReg rt) then 1 else 0) (s.pc + 4)

/-- R107, with R21 and R92 for the destination and the report. The report clause rests on D20, the
hard-wired register 0 on D2 (notes/assumptions/17.md, 2.md). -/
def Obligations.AddiuAddsSignExtended : Prop :=
  DecodesIForm 0x24000000 .addiu ∧
  ∀ (rs rt : Reg) (imm : BitVec 16) (s : State), ∃ t, exec (.addiu rs rt imm) s = .next t ∧
    WritesRegister s t rt (s.readReg rs + imm.signExtend 32) (s.pc + 4)

/-- R108, with R21 and R92 for the destination and the report. The report clause rests on D20, the
hard-wired register 0 on D2 (notes/assumptions/17.md, 2.md). The extension is D3's. -/
def Obligations.AndiMasksWithImmediate : Prop :=
  DecodesIForm 0x30000000 .andi ∧
  ∀ (rs rt : Reg) (imm : BitVec 16) (s : State), ∃ t, exec (.andi rs rt imm) s = .next t ∧
    WritesRegister s t rt (s.readReg rs &&& Limm s imm) (s.pc + 4)

/-- R109, with R21 and R92 for the destination and the report. The report clause rests on D20, the
hard-wired register 0 on D2 (notes/assumptions/17.md, 2.md). The extension is D3's. -/
def Obligations.OriSetsImmediateBits : Prop :=
  DecodesIForm 0x34000000 .ori ∧
  ∀ (rs rt : Reg) (imm : BitVec 16) (s : State), ∃ t, exec (.ori rs rt imm) s = .next t ∧
    WritesRegister s t rt (s.readReg rs ||| Limm s imm) (s.pc + 4)

/-- R110, with R21 and R92 for the destination and the report. The report clause rests on D20, the
hard-wired register 0 on D2 (notes/assumptions/17.md, 2.md). -/
def Obligations.LuiLoadsUpperHalf : Prop :=
  DecodesIForm 0x3C000000 .lui ∧
  ∀ (rs rt : Reg) (imm : BitVec 16) (s : State), ∃ t, exec (.lui rs rt imm) s = .next t ∧
    WritesRegister s t rt (imm ++ 0x0000#16) (s.pc + 4)

/-! ### Control transfer -/

/-- R120, with the check the next step's fetch makes (R126). -/
def Obligations.JrJumpsToRegister : Prop :=
  DecodesRForm 0x00000008 .jr ∧
  ∀ (rs rt rd : Reg) (shamt : BitVec 5) (s : State), ∃ t, exec (.jr rs rt rd shamt) s = .next t ∧
    WritesPcOnly s t (s.readReg rs) ∧ NextFetchChecks t

/-- R121. -/
def Obligations.JumpKeepsRegionOfNextPc : Prop :=
  DecodesJForm 0x08000000 .j ∧
  ∀ (target : BitVec 26) (s : State), ∃ t, exec (.j target) s = .next t ∧
    WritesPcOnly s t ((s.pc + 4).extractLsb' 28 4 ++ target ++ 0b00#2) ∧ NextFetchChecks t

/-- R122, with R126 for the next fetch and R92 for the report. The report clause rests on D20
(notes/assumptions/17.md), the next fetch on D9 and D28. -/
def Obligations.JalLinksNextPc : Prop :=
  DecodesJForm 0x0C000000 .jal ∧
  ∀ (target : BitVec 26) (s : State), ∃ t, exec (.jal target) s = .next t ∧
    WritesRegister s t 31 (s.pc + 4) ((s.pc + 4).extractLsb' 28 4 ++ target ++ 0b00#2) ∧
    NextFetchChecks t

/-- R123. -/
def Obligations.BeqBranchesOnEqual : Prop :=
  DecodesIForm 0x10000000 .beq ∧
  ∀ (rs rt : Reg) (imm : BitVec 16) (s : State), ∃ t, exec (.beq rs rt imm) s = .next t ∧
    WritesPcOnly s t (if s.readReg rs = s.readReg rt then s.pc + 4 + (imm.signExtend 32 <<< 2)
      else s.pc + 4) ∧
    NextFetchChecks t

/-- R124. -/
def Obligations.BneBranchesOnUnequal : Prop :=
  DecodesIForm 0x14000000 .bne ∧
  ∀ (rs rt : Reg) (imm : BitVec 16) (s : State), ∃ t, exec (.bne rs rt imm) s = .next t ∧
    WritesPcOnly s t (if s.readReg rs ≠ s.readReg rt then s.pc + 4 + (imm.signExtend 32 <<< 2)
      else s.pc + 4) ∧
    NextFetchChecks t

/-- R128: with the same fields in the same state exactly one of `beq` and `bne` takes the branch, to
one and the same target, and the other goes on at PC + 4. -/
def Obligations.BranchesAreComplements : Prop :=
  ∀ (rs rt : Reg) (imm : BitVec 16) (s t u : State),
    exec (.beq rs rt imm) s = .next t → exec (.bne rs rt imm) s = .next u →
    (s.readReg rs = s.readReg rt ∧ t.pc = s.pc + 4 + (imm.signExtend 32 <<< 2) ∧ u.pc = s.pc + 4) ∨
    (s.readReg rs ≠ s.readReg rt ∧ t.pc = s.pc + 4 ∧ u.pc = s.pc + 4 + (imm.signExtend 32 <<< 2))

/-- R125, R127: `jr $31` right after a `jal` goes to the instruction after the `jal`: PC + 4, there
being no delay slot. -/
def Obligations.CallReturnsAfterTheJal : Prop :=
  ∀ (target : BitVec 26) (rt rd : Reg) (shamt : BitVec 5) (s t u : State),
    exec (.jal target) s = .next t → exec (.jr 31 rt rd shamt) t = .next u →
    u.pc = s.pc + 4 ∧ (∀ q, q ≠ 31 → u.readReg q = s.readReg q) ∧ SameMemory s u

/-- R126: no instruction but `jr` can make an aligned PC unaligned. -/
def Obligations.OnlyJrUnalignsThePc : Prop :=
  ∀ (i : Instr) (s t : State), (∀ rs rt rd shamt, i ≠ .jr rs rt rd shamt) →
    s.pc.extractLsb' 0 2 = 0b00#2 → exec i s = .next t → t.pc.extractLsb' 0 2 = 0b00#2

/-! ### Loads and stores -/

/-- R130: what `lw` does at a valid effective address, out of range, and in range but misaligned.
The stops rest on D7, D8 and D24 (notes/assumptions/8.md), the report clause on D20 and the hard-wired
register 0 on D2 (notes/assumptions/17.md, 2.md). -/
def Obligations.LwLoadsOrStops : Prop :=
  DecodesIForm 0x8C000000 .lw ∧
  ∀ (rs rt : Reg) (imm : BitVec 16) (ea : Word) (s : State), ea = s.readReg rs + imm.signExtend 32 →
    (Valid s ea → ∃ t, exec (.lw rs rt imm) s = .next t ∧
      WritesRegister s t rt (s.mem.readWord ea.toNat) (s.pc + 4)) ∧
    (¬ InArray s ea → ∃ t, exec (.lw rs rt imm) s = .next t ∧
      Stops s t (.error (.memRangeError ea s.pc)) (.faulted (.memRangeError ea s.pc))) ∧
    (InArray s ea → ¬ Valid s ea → ∃ t, exec (.lw rs rt imm) s = .next t ∧
      Stops s t (.error (.memAlignError ea s.pc)) (.faulted (.memAlignError ea s.pc)))

/-- R131: what `sw` does at a valid effective address, out of range, and in range but misaligned.
The stops rest on D7, D8 and D24 (notes/assumptions/8.md), the report of an unchanged word on D20
(notes/assumptions/17.md). -/
def Obligations.SwStoresOrStops : Prop :=
  DecodesIForm 0xAC000000 .sw ∧
  ∀ (rs rt : Reg) (imm : BitVec 16) (ea : Word) (s : State), ea = s.readReg rs + imm.signExtend 32 →
    (Valid s ea → ∃ t, exec (.sw rs rt imm) s = .next t ∧
      StoresWord s t ea (s.readReg rt) (s.pc + 4)) ∧
    (¬ InArray s ea → ∃ t, exec (.sw rs rt imm) s = .next t ∧
      Stops s t (.error (.memRangeError ea s.pc)) (.faulted (.memRangeError ea s.pc))) ∧
    (InArray s ea → ¬ Valid s ea → ∃ t, exec (.sw rs rt imm) s = .next t ∧
      Stops s t (.error (.memAlignError ea s.pc)) (.faulted (.memAlignError ea s.pc)))

/-- R50: a load returns the value of the last store to its word, whatever registers the two
instructions use to address it; and a load from another word is not touched by the store. A load into
a hard-wired register 0 leaves it reading 0 (R21, D2; notes/assumptions/2.md). The premise that memory
is in canonical form is the model's own (notes/assumptions/7.md), an invariant. -/
def Obligations.LoadSeesTheLastStore : Prop :=
  ∀ (rs rt : Reg) (imm : BitVec 16) (s t : State), s.mem.wf →
    exec (.sw rs rt imm) s = .next t → t.status = .running →
    ∀ (rs' rt' : Reg) (imm' : BitVec 16) (u : State), exec (.lw rs' rt' imm') t = .next u →
      u.status = .running →
      u.readReg rt' = if s.cfg.r0Hardwired = true ∧ rt' = 0 then 0
        else if s.readReg rs' + imm'.signExtend 32 = s.readReg rs + imm.signExtend 32
          then s.readReg rt
          else s.mem.readWord (s.readReg rs' + imm'.signExtend 32).toNat

/-- R52, R164: a store is what any later fetch of its word reads, while the memory is not written
again: there is no fence and no delay, and a store over the next instruction is fetched by the very
next step. The premise that memory is in canonical form is an invariant of the model's own
(notes/assumptions/7.md). -/
def Obligations.StoreIsSeenByFetch : Prop :=
  ∀ (rs rt : Reg) (imm : BitVec 16) (s t u : State), s.mem.wf →
    exec (.sw rs rt imm) s = .next t → Valid s (s.readReg rs + imm.signExtend 32) →
    u.mem = t.mem → u.cfg = t.cfg → u.pc = s.readReg rs + imm.signExtend 32 →
    u.fetch = .ok (s.readReg rt)

/-! ### Memory and registers -/

/-- R41, R42, R26: under a legal parameter setting a valid address is the address of exactly one word
of the array, the one `Index` names, and a read at it is a read of that word. -/
def Obligations.ValidAddressNamesOneWord : Prop :=
  ∀ (s : State) (a : Word), s.cfg.wf → Valid s a →
    s.index a < s.cfg.memWords ∧ s.cfg.base.toNat + 4 * s.index a = a.toNat ∧
    s.mem.readWord a.toNat = s.memWord (s.index a)

/-- R43: a write sets the word at a valid address and no other word of the array. The premise that
memory is in canonical form is an invariant of the model's own (notes/assumptions/7.md). -/
def Obligations.MemWriteSetsOneWord : Prop :=
  ∀ (s : State) (a v : Word) (npc : Word), s.cfg.wf → s.mem.wf → Valid s a →
    (s.commit (some (a, v)) none npc).memWord (s.index a) = v ∧
    ∀ k, k ≠ s.index a → (s.commit (some (a, v)) none npc).memWord k = s.memWord k

/-- R46: byte `BASE + 4k + j` is bits [31-8j : 24-8j] of word k. -/
def Obligations.ByteViewIsBigEndian : Prop :=
  ∀ (s : State) (k j : Nat), j < 4 →
    s.mem.readByte (s.cfg.base.toNat + 4 * k + j) = (s.memWord k).extractLsb' (24 - 8 * j) 8

/-- R21: register 0 is an ordinary register where it is not hard-wired, and reads as 0 and ignores
writes where it is; every other register holds what was written. -/
def Obligations.RegisterZeroFollowsItsSetting : Prop :=
  ∀ (s : State) (store : Option (Word × Word)) (r : Reg) (v npc : Word),
    (s.cfg.r0Hardwired = true → s.readReg 0 = 0 ∧
      (s.commit store (some (0, v)) npc).regs = s.regs) ∧
    (s.cfg.r0Hardwired = false → (s.commit store (some (0, v)) npc).readReg 0 = v) ∧
    (r ≠ 0 → (s.commit store (some (r, v)) npc).readReg r = v)

/-! ### The step -/

/-- R80, R82, R83: in a running state whose host says continue and whose PC is valid, a step is the
instruction that the word at the PC decodes to. The answer taken off the host's list is all the step
adds around it. -/
def Obligations.StepRunsTheDecodedInstruction : Prop :=
  ∀ (s : State) (i : Instr), Proceeds s → Valid s s.pc →
    decodeWord (s.mem.readWord s.pc.toNat) = .ok i → step s = exec i (AfterAnswer s)

/-- R45, R82, R144: a PC that is no valid address stops the run before any decode. -/
def Obligations.InvalidPcStopsWithFetchError : Prop :=
  ∀ s : State, Proceeds s → ¬ Valid s s.pc →
    ∃ t, step s = .next t ∧
      Stops (AfterAnswer s) t (.error (.fetchError s.pc)) (.faulted (.fetchError s.pc))

/-- R142: an illegal word at the PC stops the run with `DecodeError`. -/
def Obligations.IllegalWordStopsWithDecodeError : Prop :=
  ∀ (s : State) (w : Word), Proceeds s → Valid s s.pc → s.mem.readWord s.pc.toNat = w →
    w ≠ 0 → (∀ row ∈ InstructionRows, w &&& row.mask ≠ row.pattern) →
    ∃ t, step s = .next t ∧
      Stops (AfterAnswer s) t (.error (.decodeError w s.pc)) (.faulted (.decodeError w s.pc))

/-- R141: the zero word at the PC ends the run cleanly, with nothing changed and the PC at the zero
word; and the sentinel's meaning does so in every state. -/
def Obligations.ZeroWordHaltsCleanly : Prop :=
  (∀ s : State, ∃ t, exec .halt s = .next t ∧ Stops s t (.halt s.pc) .halted) ∧
  ∀ s : State, Proceeds s → Valid s s.pc → s.mem.readWord s.pc.toNat = 0 →
    ∃ t, step s = .next t ∧ Stops (AfterAnswer s) t (.halt s.pc) .halted ∧
      t.status.verdict = .success

/-- R149: where the host says stop before a step, the run ends with `HostStop` and nothing changes
(D13); the run then has no verdict (R154, D26). -/
def Obligations.HostStopEndsTheRun : Prop :=
  ∀ s : State, s.status = .running → s.host.head? = some .stop →
    ∃ t, step s = .next t ∧ Stops (AfterAnswer s) t .hostStop .hostStopped ∧
      t.status.verdict = .noVerdict

/-- R146, R153: no step runs from a status other than `Running`. That the model says so with a fault
is its own form (notes/assumptions/3.md). -/
def Obligations.StoppedMachineTakesNoStep : Prop :=
  ∀ s : State, s.status ≠ .running → step s = .fault (.notRunning s.status)

/-- A running machine always takes its step: the model has no fault and no refusal for it (R168: "a
running block whose host always answers continue takes its next step"). -/
def Obligations.RunningMachineTakesItsStep : Prop :=
  ∀ s : State, s.status = .running → ∃ t, step s = .next t

/-- R145: every stop is precise: after a step that ended the run, registers, memory and PC are those
before it, and the notice and the status name one and the same stop. -/
def Obligations.EveryStopIsPrecise : Prop :=
  ∀ s t : State, step s = .next t → t.status ≠ .running →
    ∃ st : Stop, Stops (AfterAnswer s) t st st.status ∧ (st.pc = none ∨ st.pc = some s.pc)

/-- R91: which stop a step raises, if any: first the fetch's, then the decoder's, then the range, then
the alignment of a data access. -/
def Obligations.StopsHaveOneOrder : Prop :=
  ∀ s t : State, Proceeds s → step s = .next t →
    (t.status = .faulted (.fetchError s.pc) ↔ ¬ Valid s s.pc) ∧
    (t.status = .halted ↔ Valid s s.pc ∧ s.mem.readWord s.pc.toNat = 0) ∧
    (t.status = .faulted (.decodeError (s.mem.readWord s.pc.toNat) s.pc) ↔
      Valid s s.pc ∧ ∃ why, decodeWord (s.mem.readWord s.pc.toNat) = .error why) ∧
    (∀ ea, t.status = .faulted (.memRangeError ea s.pc) ↔
      Valid s s.pc ∧ ∃ rs rt imm, (decodeWord (s.mem.readWord s.pc.toNat) = .ok (.lw rs rt imm) ∨
        decodeWord (s.mem.readWord s.pc.toNat) = .ok (.sw rs rt imm)) ∧
        ea = s.readReg rs + imm.signExtend 32 ∧ ¬ InArray s ea) ∧
    (∀ ea, t.status = .faulted (.memAlignError ea s.pc) ↔
      Valid s s.pc ∧ ∃ rs rt imm, (decodeWord (s.mem.readWord s.pc.toNat) = .ok (.lw rs rt imm) ∨
        decodeWord (s.mem.readWord s.pc.toNat) = .ok (.sw rs rt imm)) ∧
        ea = s.readReg rs + imm.signExtend 32 ∧ InArray s ea ∧ ¬ Valid s ea)

/-- R154: a step ends the run successfully exactly when it fetches the zero word at a valid PC, with
no verdict exactly when the host stops it, and in error exactly when the status records an error. -/
def Obligations.SuccessIsTheZeroWord : Prop :=
  ∀ s t : State, step s = .next t →
    (t.status.verdict = .success ↔
      s.host.head? ≠ some .stop ∧ Valid s s.pc ∧ s.mem.readWord s.pc.toNat = 0) ∧
    (t.status.verdict = .noVerdict ↔ s.host.head? = some .stop) ∧
    (t.status.verdict = .failure ↔ ∃ e, t.status = .faulted e)

/-- R146, R154: a run goes no further than its first stop, however many more steps are asked for. -/
def Obligations.RunEndsAtItsFirstStop : Prop :=
  ∀ (n m : Nat) (s : State), (runFor n s).status ≠ .running →
    runFor (n + m) s = runFor n s ∧ outputsOf (n + m) s = outputsOf n s

/-- R140: the six stops have the codes and statuses of the table. -/
def Obligations.StopCodesAndStatuses : Prop :=
  ∀ a pc : Word,
    (Stop.halt pc).code = 0 ∧ (Stop.halt pc).status = .halted ∧
    (Stop.error (.decodeError a pc)).code = 1 ∧
    (Stop.error (.decodeError a pc)).status = .faulted (.decodeError a pc) ∧
    (Stop.error (.memRangeError a pc)).code = 2 ∧
    (Stop.error (.memRangeError a pc)).status = .faulted (.memRangeError a pc) ∧
    (Stop.error (.memAlignError a pc)).code = 3 ∧
    (Stop.error (.memAlignError a pc)).status = .faulted (.memAlignError a pc) ∧
    (Stop.error (.fetchError pc)).code = 4 ∧
    (Stop.error (.fetchError pc)).status = .faulted (.fetchError pc) ∧
    Stop.hostStop.code = 5 ∧ Stop.hostStop.status = .hostStopped

/-! ### The whole machine -/

/-- R84 to R90: each instruction's meaning is R80's sequence through the components of the block:
snapshot, executor, next-PC multiplexer, memory stage, writeback arbiter, commit. -/
def Obligations.MeaningsFollowTheDatapath : Prop :=
  ∀ (i : Instr) (s : State), exec i s = .next (s.runDatapath i)

/-- R87: only `sw` changes memory, and of it only the four bytes at its effective address. -/
def Obligations.OnlySwChangesMemory : Prop :=
  ∀ (i : Instr) (s t : State) (a : Nat), exec i s = .next t →
    t.mem.readByte a ≠ s.mem.readByte a →
    ∃ rs rt imm, i = .sw rs rt imm ∧ (s.readReg rs + imm.signExtend 32).toNat ≤ a ∧
      a < (s.readReg rs + imm.signExtend 32).toNat + 4

/-- R88, R89, R92: an instruction writes at most one register, the one the writeback arbiter selects,
and a completed one reports it. That it reports the register even where it is the hard-wired register
0 or its value is unchanged is the spec's decision D20 (notes/assumptions/17.md). -/
def Obligations.OnlyTheDestinationIsWritten : Prop :=
  ∀ (i : Instr) (s t : State), s.status = .running → exec i s = .next t →
    (∀ q, Destination i ≠ some q → t.readReg q = s.readReg q) ∧
    (t.status = .running → ∃ npc addr, t.out = some (.report ⟨npc, Destination i, addr⟩))

/-- R92: a step that completes reports its new PC, the arbiter's destination and, for `sw` alone, the
address written; a step that stops reports nothing but the stop. That the report names an unchanged
register or address too is the spec's decision D20, and that a stop gives no report is D18. -/
def Obligations.ReportNamesWhatWasWritten : Prop :=
  ∀ (i : Instr) (s t : State), s.status = .running → exec i s = .next t →
    (t.status = .running → t.out = some (.report ⟨t.pc, Destination i, match i with
      | .sw rs _ imm => some (s.readReg rs + imm.signExtend 32)
      | _ => none⟩)) ∧
    (t.status ≠ .running → ∃ st, t.out = some (.stop st))

/-- R85: the PC of the next step, selected by the next-PC multiplexer. -/
def Obligations.NextPcIsSelectedByInstruction : Prop :=
  ∀ (i : Instr) (s t : State), exec i s = .next t → t.status = .running →
    t.pc = match i with
      | .j target => (s.pc + 4).extractLsb' 28 4 ++ target ++ 0b00#2
      | .jal target => (s.pc + 4).extractLsb' 28 4 ++ target ++ 0b00#2
      | .jr rs _ _ _ => s.readReg rs
      | .beq rs rt imm => if s.readReg rs = s.readReg rt
          then s.pc + 4 + (imm.signExtend 32 <<< 2) else s.pc + 4
      | .bne rs rt imm => if s.readReg rs ≠ s.readReg rt
          then s.pc + 4 + (imm.signExtend 32 <<< 2) else s.pc + 4
      | _ => s.pc + 4

/-- No step changes the parameters, and each takes one answer off the host's list (R8, R149). -/
def Obligations.StepTakesOneAnswer : Prop :=
  ∀ s t : State, step s = .next t → t.cfg = s.cfg ∧ t.host = s.host.tail

/-- R152, R149: what the block has put out and what the host will answer later have no influence on
a step: two states that differ in these alone take the same step. -/
def Obligations.OutputAndLaterAnswersHaveNoInfluence : Prop :=
  ∀ s s' t : State, s'.cfg = s.cfg → s'.regs = s.regs → s'.pc = s.pc → s'.mem = s.mem →
    s'.status = s.status → s'.host.head? = s.host.head? → step s = .next t →
    ∃ t', step s' = .next t' ∧ t' = { t with host := s'.host.tail }

/-- An invariant every step keeps, from every state that has it: a legal parameter setting (R8),
memory canonical and inside the array (R26), a stored register 0 of zero where it is hard-wired
(R21), and a run status and PC that agree with the last output (R30, R92, R145). -/
def Obligations.StepKeepsTheInvariant : Prop :=
  ∀ s t : State, s.Inv → step s = .next t → t.Inv

/-- The invariant holds at reset under every legal parameter setting, at the model's own reset, and
at the start of every loaded image. -/
def Obligations.ResetHasTheInvariant : Prop :=
  State.reset.Inv ∧ (∀ c : Config, c.wf → (State.resetWith c).Inv) ∧
  ∀ (c : Config) (image : List Word) (s : State), c.wf → State.boot c image = some s → s.Inv

/-- The invariant holds along every run, however long, from every state that has it. -/
def Obligations.RunsKeepTheInvariant : Prop :=
  ∀ (n : Nat) (s t : State), s.Inv → core.run n s = .next t → t.Inv ∧ t.cfg = s.cfg

/-! ### Reset and the loader -/

/-- R31: the state at simulation start: every register zero but register 29, which is TOP modulo
2^32, the PC at BASE, `Running`, the image's words from BASE on and every other memory word zero. The
zero fill is the spec's decision D6 and the status field its D12. That the model's `State.reset` takes
the example configuration and no image is the model's choice (notes/assumptions/1.md); that the host's
list is empty and nothing has been put out (notes/assumptions/4.md, 5.md) is not stated. -/
def Obligations.ResetValues : Prop :=
  (∀ (c : Config) (image : List Word) (s : State), State.boot c image = some s →
    (∀ r : Reg, s.readReg r =
      if r = 29 then BitVec.ofNat 32 (c.base.toNat + (c.instrCap + c.dataCap) * 4) else 0) ∧
    s.pc = c.base ∧ s.status = .running ∧ (∀ k, s.memWord k = image.getD k 0)) ∧
  State.boot Config.example [] = some State.reset

/-- R160, R161: a load puts image word k into memory word k, leaves the other words zero and
everything else at its reset value; an image longer than `INSTR_CAP` words is rejected, and no other
is. -/
def Obligations.BootLoadsTheImage : Prop :=
  ∀ (c : Config) (image : List Word),
    (State.boot c image = none ↔ c.instrCap < image.length) ∧
    ∀ s, State.boot c image = some s →
      (∀ k, s.memWord k = image.getD k 0) ∧
      s = { State.resetWith c with mem := s.mem }

/-- A word placed at a valid PC of a machine that proceeds is the very instruction the next step runs
(the model's own `withFetchWord`; notes/assumptions/11.md). -/
def Obligations.PlacedWordIsRun : Prop :=
  ∀ (s : State) (w : Word) (i : Instr), s.mem.wf → Proceeds s → Valid s s.pc →
    decodeWord w = .ok i →
    step (s.withFetchWord 32 w.toNat) = exec i (AfterAnswer (s.withFetchWord 32 w.toNat))

/-- R81, R42, R44, R82: the fetch port reads its address or answers its error, and so does the data
port where it reads; where it is to write it answers the same error. A fetch raises `FetchError` for
either error of its port, a data access the stop of its own. The model's choice (DESIGN CHOICE,
notes/assumptions/20.md), and no rule's, are: that the fetch port answers range where both errors
would apply, that a port with an error puts out no word, that the data port puts out no word where it
is to write, and that with no address it is idle, with no word and no error. -/
def Obligations.PortsTellRangeFromAlign : Prop :=
  ∀ (s : State) (a d : Word) (dataAddr : Option Word) (writeEnable : Bool),
    ReadsOrErrs s a (s.memoryInterface a dataAddr writeEnable).fetch ∧
    ReadsOrErrs s d (s.memoryInterface a (some d) false).data ∧
    (s.memoryInterface a (some d) true).data =
      ⟨none, (s.memoryInterface a (some d) false).data.error⟩ ∧
    (s.memoryInterface a none writeEnable).data = ⟨none, none⟩ ∧
    s.fetch = (match (s.memoryInterface s.pc dataAddr writeEnable).fetch.word with
      | some w => .ok w
      | none => .error (.fetchError s.pc)) ∧
    s.dataCheck d = (match (s.memoryInterface a (some d) writeEnable).data.error with
      | none => none
      | some .range => some (.memRangeError d s.pc)
      | some .align => some (.memAlignError d s.pc))
end

