-- ==== Sys2Proof/Laws/Decode.lean ====
section
/-!
SUPPORT. What the fields of a word are: of a word assembled by the encoder, and of a word that
matches a row of R66's table.
-/

namespace Sys2Proof

/-! ### The fields of an assembled word (R61, R62, R63) -/

section RForm
variable (rs rt rd : Reg) (shamt : BitVec 5) (funct : BitVec 6)

@[simp] theorem opcodeField_rFormWord : opcodeField (rFormWord rs rt rd shamt funct) = 0 := by
  apply BitVec.eq_of_getLsbD_eq
  intro i hi
  simp only [opcodeField, rFormWord, BitVec.getLsbD_append, BitVec.getLsbD_extractLsb']
  grind

@[simp] theorem rsField_rFormWord : rsField (rFormWord rs rt rd shamt funct) = rs := by
  have : (rFormWord rs rt rd shamt funct).extractLsb' 21 5 = rs.toField := by
    apply BitVec.eq_of_getLsbD_eq
    intro i hi
    simp only [rFormWord, BitVec.getLsbD_append, BitVec.getLsbD_extractLsb']
    grind
  simp [rsField, this]

@[simp] theorem rtField_rFormWord : rtField (rFormWord rs rt rd shamt funct) = rt := by
  have : (rFormWord rs rt rd shamt funct).extractLsb' 16 5 = rt.toField := by
    apply BitVec.eq_of_getLsbD_eq
    intro i hi
    simp only [rFormWord, BitVec.getLsbD_append, BitVec.getLsbD_extractLsb']
    grind
  simp [rtField, this]

@[simp] theorem rdField_rFormWord : rdField (rFormWord rs rt rd shamt funct) = rd := by
  have : (rFormWord rs rt rd shamt funct).extractLsb' 11 5 = rd.toField := by
    apply BitVec.eq_of_getLsbD_eq
    intro i hi
    simp only [rFormWord, BitVec.getLsbD_append, BitVec.getLsbD_extractLsb']
    grind
  simp [rdField, this]

@[simp] theorem shamtField_rFormWord : shamtField (rFormWord rs rt rd shamt funct) = shamt := by
  apply BitVec.eq_of_getLsbD_eq
  intro i hi
  simp only [shamtField, rFormWord, BitVec.getLsbD_append, BitVec.getLsbD_extractLsb']
  grind

@[simp] theorem functField_rFormWord : functField (rFormWord rs rt rd shamt funct) = funct := by
  apply BitVec.eq_of_getLsbD_eq
  intro i hi
  simp only [functField, rFormWord, BitVec.getLsbD_append, BitVec.getLsbD_extractLsb']
  grind

end RForm

section IForm
variable (opcode : BitVec 6) (rs rt : Reg) (imm : BitVec 16)

@[simp] theorem opcodeField_iFormWord : opcodeField (iFormWord opcode rs rt imm) = opcode := by
  apply BitVec.eq_of_getLsbD_eq
  intro i hi
  simp only [opcodeField, iFormWord, BitVec.getLsbD_append, BitVec.getLsbD_extractLsb']
  grind

@[simp] theorem rsField_iFormWord : rsField (iFormWord opcode rs rt imm) = rs := by
  have : (iFormWord opcode rs rt imm).extractLsb' 21 5 = rs.toField := by
    apply BitVec.eq_of_getLsbD_eq
    intro i hi
    simp only [iFormWord, BitVec.getLsbD_append, BitVec.getLsbD_extractLsb']
    grind
  simp [rsField, this]

@[simp] theorem rtField_iFormWord : rtField (iFormWord opcode rs rt imm) = rt := by
  have : (iFormWord opcode rs rt imm).extractLsb' 16 5 = rt.toField := by
    apply BitVec.eq_of_getLsbD_eq
    intro i hi
    simp only [iFormWord, BitVec.getLsbD_append, BitVec.getLsbD_extractLsb']
    grind
  simp [rtField, this]

@[simp] theorem immField_iFormWord : immField (iFormWord opcode rs rt imm) = imm := by
  apply BitVec.eq_of_getLsbD_eq
  intro i hi
  simp only [immField, iFormWord, BitVec.getLsbD_append, BitVec.getLsbD_extractLsb']
  grind

end IForm

section JForm
variable (opcode : BitVec 6) (target : BitVec 26)

@[simp] theorem opcodeField_jFormWord : opcodeField (jFormWord opcode target) = opcode := by
  apply BitVec.eq_of_getLsbD_eq
  intro i hi
  simp only [opcodeField, jFormWord, BitVec.getLsbD_append, BitVec.getLsbD_extractLsb']
  grind

@[simp] theorem targetField_jFormWord : targetField (jFormWord opcode target) = target := by
  apply BitVec.eq_of_getLsbD_eq
  intro i hi
  simp only [targetField, jFormWord, BitVec.getLsbD_append, BitVec.getLsbD_extractLsb']
  grind

end JForm

/-! ### An assembled word that is not the halt sentinel's (R68) -/

theorem rFormWord_ne_zero (rs rt rd : Reg) (shamt : BitVec 5) {funct : BitVec 6}
    (h : funct ≠ 0#6) : rFormWord rs rt rd shamt funct ≠ 0#32 := fun hw =>
  h ((functField_rFormWord rs rt rd shamt funct).symm.trans (congrArg functField hw))

theorem iFormWord_ne_zero (rs rt : Reg) (imm : BitVec 16) {opcode : BitVec 6}
    (h : opcode ≠ 0#6) : iFormWord opcode rs rt imm ≠ 0#32 := fun hw =>
  h ((opcodeField_iFormWord opcode rs rt imm).symm.trans (congrArg opcodeField hw))

theorem jFormWord_ne_zero (target : BitVec 26) {opcode : BitVec 6}
    (h : opcode ≠ 0#6) : jFormWord opcode target ≠ 0#32 := fun hw =>
  h ((opcodeField_jFormWord opcode target).symm.trans (congrArg opcodeField hw))

/-! ### A word is its fields put together (R60) -/

theorem rFormWord_fields (w : Word) (h : opcodeField w = 0) :
    rFormWord (rsField w) (rtField w) (rdField w) (shamtField w) (functField w) = w := by
  have ho : ∀ i, i < 6 → w.getLsbD (26 + i) = false := by
    intro i hi
    have := congrArg (·.getLsbD i) h
    simpa [opcodeField, hi] using this
  apply BitVec.eq_of_getLsbD_eq
  intro i hi
  simp only [rFormWord, rsField, rtField, rdField, shamtField, functField, BitVec.getLsbD_append,
    BitVec.ofFin_toFin, BitVec.getLsbD_extractLsb']
  by_cases h26 : 26 ≤ i
  · have := ho (i - 26) (by omega)
    rw [show 26 + (i - 26) = i by omega] at this
    rw [this]
    grind
  · grind

theorem iFormWord_fields (w : Word) :
    iFormWord (opcodeField w) (rsField w) (rtField w) (immField w) = w := by
  apply BitVec.eq_of_getLsbD_eq
  intro i hi
  simp only [iFormWord, opcodeField, rsField, rtField, immField, BitVec.getLsbD_append,
    BitVec.ofFin_toFin, BitVec.getLsbD_extractLsb']
  grind

theorem jFormWord_fields (w : Word) : jFormWord (opcodeField w) (targetField w) = w := by
  apply BitVec.eq_of_getLsbD_eq
  intro i hi
  simp only [jFormWord, opcodeField, targetField, BitVec.getLsbD_append, BitVec.getLsbD_extractLsb']
  grind

/-! ### Matching a row of the table (R66) -/

/-- A word that matches under the opcode and funct mask has the pattern's opcode and funct. -/
theorem fields_of_rMask {w p : Word} (h : w &&& 0xFC00003F = p) :
    opcodeField w = opcodeField p ∧ functField w = functField p := by
  subst h
  constructor
  · simp only [opcodeField, BitVec.extractLsb'_and]
    rw [show BitVec.extractLsb' 26 6 (0xFC00003F : Word) = BitVec.allOnes 6 by decide,
      BitVec.and_allOnes]
  · simp only [functField, BitVec.extractLsb'_and]
    rw [show BitVec.extractLsb' 0 6 (0xFC00003F : Word) = BitVec.allOnes 6 by decide,
      BitVec.and_allOnes]

/-- A word that matches under the opcode mask has the pattern's opcode. -/
theorem opcode_of_opMask {w p : Word} (h : w &&& 0xFC000000 = p) : opcodeField w = opcodeField p := by
  subst h
  simp only [opcodeField, BitVec.extractLsb'_and]
  rw [show BitVec.extractLsb' 26 6 (0xFC000000 : Word) = BitVec.allOnes 6 by decide,
    BitVec.and_allOnes]

/-- What the opcode and funct mask leaves of an R-form word. -/
theorem rFormWord_and_mask (rs rt rd : Reg) (shamt : BitVec 5) (funct : BitVec 6) :
    rFormWord rs rt rd shamt funct &&& 0xFC00003F = funct.zeroExtend 32 := by
  have hm : ∀ i, i < 32 → (0xFC00003F : Word).getLsbD i = (decide (i < 6) || decide (26 ≤ i)) := by
    decide
  apply BitVec.eq_of_getLsbD_eq
  intro i hi
  rw [BitVec.getLsbD_and, hm i hi]
  simp only [rFormWord, BitVec.getLsbD_append, BitVec.truncate_eq_setWidth, BitVec.getLsbD_setWidth]
  grind

/-- What the opcode mask leaves of an I-form word. -/
theorem iFormWord_and_mask (opcode : BitVec 6) (rs rt : Reg) (imm : BitVec 16) :
    iFormWord opcode rs rt imm &&& 0xFC000000 = opcode ++ 0#26 := by
  have hm : ∀ i, i < 32 → (0xFC000000 : Word).getLsbD i = decide (26 ≤ i) := by decide
  apply BitVec.eq_of_getLsbD_eq
  intro i hi
  rw [BitVec.getLsbD_and, hm i hi]
  simp only [iFormWord, BitVec.getLsbD_append]
  grind

/-- What the opcode mask leaves of a J-form word. -/
theorem jFormWord_and_mask (opcode : BitVec 6) (target : BitVec 26) :
    jFormWord opcode target &&& 0xFC000000 = opcode ++ 0#26 := by
  have hm : ∀ i, i < 32 → (0xFC000000 : Word).getLsbD i = decide (26 ≤ i) := by decide
  apply BitVec.eq_of_getLsbD_eq
  intro i hi
  rw [BitVec.getLsbD_and, hm i hi]
  simp only [jFormWord, BitVec.getLsbD_append]
  grind

end Sys2Proof
end

