-- ==== Sys2Proof/Laws/Memory.lean ====
section
/-!
SUPPORT. The laws of memory: reading what was written, leaving the rest alone, and keeping the
canonical form, byte by byte, word by word and for a whole image.
-/

namespace Sys2Proof

/-! ### Words and bytes -/

/-- A word's big-endian bytes put together again are the word (R46). -/
@[simp] theorem wordOfBytes_wordByte (w : Word) :
    wordOfBytes (wordByte w 0) (wordByte w 1) (wordByte w 2) (wordByte w 3) = w := by
  apply BitVec.eq_of_getLsbD_eq
  intro i hi
  simp only [wordOfBytes, wordByte, BitVec.getLsbD_append, BitVec.getLsbD_extractLsb']
  grind

namespace Machine.Memory

@[simp] theorem readByte_cons_of_ne {k a : Nat} (v : Byte) (m : Memory) (h : k ≠ a) :
    Memory.readByte (Memory.cons k v m) a = Memory.readByte m a := by
  simp only [Memory.cons]
  split <;> simp [Memory.readByte, h]

/-- An address below every listed one reads as unlisted. -/
theorem readByte_of_lt {m : Memory} {a : Nat} (h : ∀ c ∈ m, a < c.1) :
    Memory.readByte m a = Memory.unlisted := by
  induction m with
  | nil => rfl
  | cons c rest ih =>
    obtain ⟨k, b⟩ := c
    have hk : a < k := h (k, b) (by simp)
    simp only [Memory.readByte, if_neg (show ¬k = a by omega)]
    exact ih fun c hc => h c (by simp [hc])

theorem mem_cons {a : Nat} {v : Byte} {m : Memory} {c : Host.Cell}
    (h : c ∈ Memory.cons a v m) : (c = (a, v) ∧ v ≠ Memory.unlisted) ∨ c ∈ m := by
  simp only [Memory.cons] at h
  split at h
  · exact .inr h
  · rcases List.mem_cons.mp h with h | h
    · exact .inl ⟨h, ‹_›⟩
    · exact .inr h

/-- A listed cell after a byte write is the written one or was listed before. -/
theorem mem_writeByte {m : Memory} {a : Nat} {v : Byte} {c : Host.Cell}
    (h : c ∈ m.writeByte a v) : (c = (a, v) ∧ v ≠ Memory.unlisted) ∨ c ∈ m := by
  induction m with
  | nil => exact mem_cons h
  | cons d rest ih =>
    obtain ⟨k, b⟩ := d
    simp only [Memory.writeByte] at h
    split at h
    · exact mem_cons h
    · split at h
      · exact (mem_cons h).imp_right fun h => by simp [h]
      · rcases List.mem_cons.mp h with h | h
        · exact .inr (by simp [h])
        · exact (ih h).imp_right fun h => by simp [h]

theorem wf_cons {a : Nat} {v : Byte} {m : Memory} (hm : m.wf) (ha : ∀ c ∈ m, a < c.1) :
    (Memory.cons a v m).wf := by
  simp only [Memory.cons]
  split
  · exact hm
  · rename_i hv
    exact ⟨List.pairwise_cons.mpr ⟨ha, hm.1⟩, by
      intro c hc
      rcases List.mem_cons.mp hc with rfl | hc
      · exact hv
      · exact hm.2 c hc⟩

theorem wf_tail {c : Host.Cell} {m : Memory} (h : Memory.wf (c :: m)) :
    m.wf ∧ (∀ d ∈ m, c.1 < d.1) ∧ c.2 ≠ Memory.unlisted :=
  ⟨⟨(List.pairwise_cons.mp h.1).2, fun d hd => h.2 d (by simp [hd])⟩,
    (List.pairwise_cons.mp h.1).1, h.2 c (by simp)⟩

/-- Writing a byte keeps the canonical form. -/
theorem wf_writeByte {m : Memory} (h : m.wf) (a : Nat) (v : Byte) : (m.writeByte a v).wf := by
  induction m with
  | nil => exact wf_cons h (by simp)
  | cons c rest ih =>
    obtain ⟨k, b⟩ := c
    obtain ⟨hr, hlt, hb⟩ := wf_tail h
    simp only [Memory.writeByte]
    split
    · rename_i hak
      refine wf_cons h fun d hd => ?_
      rcases List.mem_cons.mp hd with rfl | hd
      · exact hak
      · exact hak.trans (hlt d hd)
    · split
      · subst a
        exact wf_cons hr hlt
      · have hw := ih hr
        refine ⟨List.pairwise_cons.mpr ⟨fun d hd => ?_, hw.1⟩, fun d hd => ?_⟩
        · rcases mem_writeByte hd with ⟨rfl, -⟩ | hd
          · show k < a
            omega
          · exact hlt d hd
        · rcases List.mem_cons.mp hd with rfl | hd
          · exact hb
          · exact hw.2 d hd

/-- Reading the byte just written gives it. -/
@[simp] theorem readByte_writeByte_self {m : Memory} (h : m.wf) (a : Nat) (v : Byte) :
    (m.writeByte a v).readByte a = v := by
  have key : ∀ {rest : Memory}, (∀ c ∈ rest, a < c.1) → (Memory.cons a v rest).readByte a = v := by
    intro rest hrest
    simp only [Memory.cons]
    split
    · rename_i hv
      rw [readByte_of_lt hrest, hv]
    · simp [Memory.readByte]
  induction m with
  | nil => exact key (by simp)
  | cons c rest ih =>
    obtain ⟨k, b⟩ := c
    obtain ⟨hr, hlt, -⟩ := wf_tail h
    simp only [Memory.writeByte]
    split
    · rename_i hak
      refine key fun d hd => ?_
      rcases List.mem_cons.mp hd with rfl | hd
      · exact hak
      · exact hak.trans (hlt d hd)
    · split
      · subst a
        exact key hlt
      · rename_i hne
        simpa [Memory.readByte, Ne.symm hne] using ih hr

/-- Writing a byte leaves every other byte alone. -/
theorem readByte_writeByte_of_ne (m : Memory) {a x : Nat} (v : Byte) (h : x ≠ a) :
    (m.writeByte a v).readByte x = m.readByte x := by
  induction m with
  | nil => simp [Memory.writeByte, Ne.symm h]
  | cons c rest ih =>
    obtain ⟨k, b⟩ := c
    simp only [Memory.writeByte]
    split
    · simp [Ne.symm h]
    · split
      · subst a
        simp [Memory.readByte, Ne.symm h]
      · simp only [Memory.readByte, ih]

/-- Two memories in canonical form with the same bytes are the same data. -/
theorem ext_of_readByte {m n : Memory} (hm : m.wf) (hn : n.wf)
    (h : ∀ a, m.readByte a = n.readByte a) : m = n := by
  have zero_of_lt : ∀ {m : Memory} {a}, (∀ c ∈ m, a < c.1) → m.readByte a = 0 := readByte_of_lt
  induction m generalizing n with
  | nil =>
    cases n with
    | nil => rfl
    | cons d n =>
      have := h d.1
      simp only [Memory.readByte, if_true] at this
      exact absurd this.symm (wf_tail hn).2.2
  | cons c m ih =>
    cases n with
    | nil =>
      have := h c.1
      simp only [Memory.readByte, if_true] at this
      exact absurd this (wf_tail hm).2.2
    | cons d n =>
      obtain ⟨hm', hcm, hc0⟩ := wf_tail hm
      obtain ⟨hn', hdn, hd0⟩ := wf_tail hn
      have hk : c.1 = d.1 := by
        rcases Nat.lt_trichotomy c.1 d.1 with hlt | heq | hgt
        · have := h c.1
          rw [zero_of_lt (m := d :: n)] at this
          · simp only [Memory.readByte, if_true] at this
            exact absurd this hc0
          · intro e he
            rcases List.mem_cons.mp he with rfl | he
            · exact hlt
            · exact hlt.trans (hdn e he)
        · exact heq
        · have := h d.1
          rw [zero_of_lt (m := c :: m)] at this
          · simp only [Memory.readByte, if_true] at this
            exact absurd this.symm hd0
          · intro e he
            rcases List.mem_cons.mp he with rfl | he
            · exact hgt
            · exact hgt.trans (hcm e he)
      have hv : c.2 = d.2 := by
        have := h c.1
        simpa [Memory.readByte, hk] using this
      have hrest : m = n := by
        refine ih hm' hn' fun a => ?_
        by_cases ha : c.1 = a
        · subst ha
          rw [zero_of_lt hcm, zero_of_lt (m := n) (fun e he => hk ▸ hdn e he)]
        · have := h a
          simpa [Memory.readByte, ha, hk ▸ ha] using this
      exact congrArg₂ List.cons (Prod.ext hk hv) hrest

/-! ### Word by word -/

/-- Writing a word keeps the canonical form. -/
theorem wf_writeWord {m : Memory} (h : m.wf) (a : Nat) (w : Word) : (m.writeWord a w).wf :=
  wf_writeByte (wf_writeByte (wf_writeByte (wf_writeByte h _ _) _ _) _ _) _ _

/-- A listed cell after a word write is one of its four or was listed before. -/
theorem mem_writeWord {m : Memory} {a : Nat} {w : Word} {c : Host.Cell}
    (h : c ∈ m.writeWord a w) : (a ≤ c.1 ∧ c.1 < a + 4) ∨ c ∈ m := by
  rcases mem_writeByte h with ⟨rfl, -⟩ | h
  · exact .inl ⟨by simp, by simp⟩
  rcases mem_writeByte h with ⟨rfl, -⟩ | h
  · exact .inl ⟨by simp, by simp⟩
  rcases mem_writeByte h with ⟨rfl, -⟩ | h
  · exact .inl ⟨by simp, by simp⟩
  rcases mem_writeByte h with ⟨rfl, -⟩ | h
  · exact .inl ⟨by simp, by simp⟩
  · exact .inr h

/-- Writing a word leaves every byte outside its four alone. -/
theorem readByte_writeWord_of_ne (m : Memory) {a x : Nat} (w : Word) (h : x < a ∨ a + 4 ≤ x) :
    (m.writeWord a w).readByte x = m.readByte x := by
  simp only [Memory.writeWord]
  rw [readByte_writeByte_of_ne _ _ (by omega), readByte_writeByte_of_ne _ _ (by omega),
    readByte_writeByte_of_ne _ _ (by omega), readByte_writeByte_of_ne _ _ (by omega)]

/-- The four bytes of a word just written (R46). -/
theorem readByte_writeWord {m : Memory} (h : m.wf) (a : Nat) (w : Word) {j : Nat} (hj : j < 4) :
    (m.writeWord a w).readByte (a + j) = wordByte w j := by
  have h1 := wf_writeByte h a (wordByte w 0)
  have h2 := wf_writeByte h1 (a + 1) (wordByte w 1)
  have h3 := wf_writeByte h2 (a + 2) (wordByte w 2)
  simp only [Memory.writeWord]
  obtain rfl | rfl | rfl | rfl : j = 0 ∨ j = 1 ∨ j = 2 ∨ j = 3 := by omega
  · rw [readByte_writeByte_of_ne _ _ (by omega), readByte_writeByte_of_ne _ _ (by omega),
      readByte_writeByte_of_ne _ _ (by omega)]
    exact readByte_writeByte_self h a _
  · rw [readByte_writeByte_of_ne _ _ (by omega), readByte_writeByte_of_ne _ _ (by omega)]
    exact readByte_writeByte_self h1 _ _
  · rw [readByte_writeByte_of_ne _ _ (by omega)]
    exact readByte_writeByte_self h2 _ _
  · exact readByte_writeByte_self h3 _ _

/-- Reading the word just written gives it (R42, R43). -/
theorem readWord_writeWord_self {m : Memory} (h : m.wf) (a : Nat) (w : Word) :
    (m.writeWord a w).readWord a = w := by
  simp only [Memory.readWord]
  have h0 := readByte_writeWord h a w (j := 0) (by omega)
  rw [Nat.add_zero] at h0
  rw [h0, readByte_writeWord h a w (j := 1) (by omega), readByte_writeWord h a w (j := 2) (by omega),
    readByte_writeWord h a w (j := 3) (by omega), wordOfBytes_wordByte]

/-- A word written elsewhere leaves a word alone. -/
theorem readWord_writeWord_of_ne (m : Memory) {a x : Nat} (w : Word) (h : x + 4 ≤ a ∨ a + 4 ≤ x) :
    (m.writeWord a w).readWord x = m.readWord x := by
  simp only [Memory.readWord]
  rw [readByte_writeWord_of_ne _ _ (by omega), readByte_writeWord_of_ne _ _ (by omega),
    readByte_writeWord_of_ne _ _ (by omega), readByte_writeWord_of_ne _ _ (by omega)]

/-- A word depends on its four bytes only. -/
theorem readWord_congr {m n : Memory} {a : Nat}
    (h : ∀ x, a ≤ x → x < a + 4 → m.readByte x = n.readByte x) : m.readWord a = n.readWord a := by
  simp only [Memory.readWord]
  rw [h a (by omega) (by omega), h (a + 1) (by omega) (by omega), h (a + 2) (by omega) (by omega),
    h (a + 3) (by omega) (by omega)]

/-- Memory with nothing listed holds zero words (D6). -/
@[simp] theorem readWord_nil (a : Nat) : Memory.readWord [] a = 0 :=
  (by decide : wordOfBytes 0 0 0 0 = 0)

/-! ### A whole image -/

/-- Memory with nothing listed is in canonical form. -/
theorem wf_nil : Memory.wf [] := ⟨List.Pairwise.nil, by simp⟩

theorem wf_writeWords {m : Memory} (h : m.wf) (a : Nat) (ws : List Word) : (m.writeWords a ws).wf := by
  induction ws generalizing m a with
  | nil => exact h
  | cons w ws ih => exact ih (wf_writeWord h a w) (a + 4)

theorem readByte_writeWords_of_ne (m : Memory) {a x : Nat} (ws : List Word)
    (h : x < a ∨ a + 4 * ws.length ≤ x) : (m.writeWords a ws).readByte x = m.readByte x := by
  induction ws generalizing m a with
  | nil => rfl
  | cons w ws ih =>
    simp only [List.length_cons] at h
    rw [Memory.writeWords, ih _ (by omega), readByte_writeWord_of_ne _ _ (by omega)]

/-- A listed cell after an image is written is one of the image's or was listed before. -/
theorem mem_writeWords {m : Memory} {a : Nat} {ws : List Word} {c : Host.Cell}
    (h : c ∈ m.writeWords a ws) : (a ≤ c.1 ∧ c.1 < a + 4 * ws.length) ∨ c ∈ m := by
  induction ws generalizing m a with
  | nil => exact .inr h
  | cons w ws ih =>
    simp only [List.length_cons]
    rcases ih h with h | h
    · exact .inl (by omega)
    · exact (mem_writeWord h).imp_left fun h => by omega

/-- The words of an image just written, and the words after it (R161). -/
theorem readWord_writeWords {m : Memory} (h : m.wf) (a : Nat) (ws : List Word) (k : Nat) :
    (m.writeWords a ws).readWord (a + 4 * k) = ws.getD k (m.readWord (a + 4 * k)) := by
  induction ws generalizing m a k with
  | nil => rfl
  | cons w ws ih =>
    cases k with
    | zero =>
      have hself := readWord_writeWord_self h a w
      have hcongr : ((m.writeWord a w).writeWords (a + 4) ws).readWord a =
          (m.writeWord a w).readWord a :=
        readWord_congr fun x _ _ => readByte_writeWords_of_ne _ ws (by omega)
      simpa [Memory.writeWords] using hcongr.trans hself
    | succ k =>
      have hne : (m.writeWord a w).readWord (a + 4 * (k + 1)) = m.readWord (a + 4 * (k + 1)) :=
        readWord_writeWord_of_ne m w (by omega)
      have := ih (wf_writeWord h a w) (a + 4) k
      rw [show a + 4 + 4 * k = a + 4 * (k + 1) by omega, hne] at this
      simpa [Memory.writeWords] using this

end Machine.Memory
end Sys2Proof
end

