-- ==== Sys2Proof/Laws/State.lean ====
section
/-!
SUPPORT. One lemma per field per update of the state, all true by unfolding, for `simp`.
-/

namespace Sys2Proof.Machine

variable (s : State) (store : Option (Word × Word)) (write : Option (Reg × Word)) (npc : Word)

/-! ### `commit` -/

@[simp] theorem commit_cfg : (s.commit store write npc).cfg = s.cfg := rfl
@[simp] theorem commit_pc : (s.commit store write npc).pc = npc := rfl
@[simp] theorem commit_status : (s.commit store write npc).status = s.status := rfl
@[simp] theorem commit_host : (s.commit store write npc).host = s.host := rfl
@[simp] theorem commit_out : (s.commit store write npc).out =
    some (.report ⟨npc, write.map Prod.fst, store.map Prod.fst⟩) := rfl
@[simp] theorem commit_mem_none : (s.commit none write npc).mem = s.mem := rfl
@[simp] theorem commit_mem_some (a w : Word) :
    (s.commit (some (a, w)) write npc).mem = s.mem.writeWord a.toNat w := rfl
@[simp] theorem commit_regs_none : (s.commit store none npc).regs = s.regs := rfl
@[simp] theorem commit_regs_some (r : Reg) (v : Word) :
    (s.commit store (some (r, v)) npc).regs = s.regsWith r v := rfl

/-! ### `raise` -/

@[simp] theorem raise_cfg (st : Stop) : (s.raise st).cfg = s.cfg := rfl
@[simp] theorem raise_regs (st : Stop) : (s.raise st).regs = s.regs := rfl
@[simp] theorem raise_pc (st : Stop) : (s.raise st).pc = s.pc := rfl
@[simp] theorem raise_mem (st : Stop) : (s.raise st).mem = s.mem := rfl
@[simp] theorem raise_status (st : Stop) : (s.raise st).status = st.status := rfl
@[simp] theorem raise_host (st : Stop) : (s.raise st).host = s.host := rfl
@[simp] theorem raise_out (st : Stop) : (s.raise st).out = some (.stop st) := rfl
@[simp] theorem raise_readReg (st : Stop) (r : Reg) : (s.raise st).readReg r = s.readReg r := rfl

/-! ### `sampleHost` -/

/-- All sampling the host's answer does: the answer is the list's head, or continue, and the rest of
the state is as before but for the list's tail. -/
theorem sampleHost_eq : s.sampleHost =
    (s.host.head?.getD .proceed, { s with host := s.host.tail }) := by
  obtain ⟨cfg, regs, pc, mem, status, host, out⟩ := s
  cases host <;> rfl

/-! ### `resetWith` -/

variable (c : Config)

@[simp] theorem resetWith_cfg : (State.resetWith c).cfg = c := rfl
@[simp] theorem resetWith_regs : (State.resetWith c).regs = c.resetRegs := rfl
@[simp] theorem resetWith_pc : (State.resetWith c).pc = c.base := rfl
@[simp] theorem resetWith_mem : (State.resetWith c).mem = [] := rfl
@[simp] theorem resetWith_status : (State.resetWith c).status = .running := rfl
@[simp] theorem resetWith_host : (State.resetWith c).host = [] := rfl
@[simp] theorem resetWith_out : (State.resetWith c).out = none := rfl

/-! ### What the reads of a state depend on -/

theorem readReg_congr {s t : State} (hc : t.cfg = s.cfg) (hr : t.regs = s.regs) (r : Reg) :
    t.readReg r = s.readReg r := by
  simp only [State.readReg, hc, hr]

theorem inRange_congr {s t : State} (hc : t.cfg = s.cfg) (a : Word) : t.inRange a = s.inRange a := by
  simp only [State.inRange, hc]

theorem validAddr_congr {s t : State} (hc : t.cfg = s.cfg) (a : Word) :
    t.validAddr a = s.validAddr a := by
  simp only [State.validAddr, inRange_congr hc]

end Sys2Proof.Machine
end

