-- ==== Sys2Proof/Laws/Ops.lean ====
section
/-!
SUPPORT. One lemma for each shared operation that says all it can do: register reads after a commit,
the range and alignment of addresses, the errors of the memory ports, the check of a data access, the
fetch.
-/

namespace Sys2Proof.Machine

/-! ### Registers (R21) -/

/-- Reading a register after writing one: the written register gives the value unless the setting
discards it, every other register is as before. -/
theorem readReg_commit_some (s : State) (store : Option (Word × Word)) (r : Reg) (v npc : Word)
    (q : Reg) : (s.commit store (some (r, v)) npc).readReg q =
      if q = r then (if Config.discards s.cfg r then 0 else v) else s.readReg q := by
  simp only [State.readReg, commit_cfg, commit_regs_some, State.regsWith]
  by_cases hq : q = r
  · subst hq
    by_cases hd : Config.discards s.cfg q = true <;> simp [hd]
  · have hne : r.val ≠ q.val := fun h => hq (Fin.ext h.symm)
    by_cases hd : Config.discards s.cfg r = true <;> simp [hd, hq, Vector.getElem_set_ne _ _ hne]

/-- A commit that writes no register leaves every register as it was. -/
@[simp] theorem readReg_commit_none (s : State) (store : Option (Word × Word)) (npc : Word) (q : Reg) :
    (s.commit store none npc).readReg q = s.readReg q :=
  readReg_congr (by simp) (by simp) q

/-! ### The canonical form of memory, operation by operation -/

/-- A commit keeps it. -/
theorem commit_mem_wf {s : State} (h : s.mem.wf) (store : Option (Word × Word))
    (write : Option (Reg × Word)) (npc : Word) : (s.commit store write npc).mem.wf := by
  cases store with
  | none => exact h
  | some aw => exact Memory.wf_writeWord h _ _

/-- Raising a stop keeps it. -/
theorem raise_mem_wf {s : State} (h : s.mem.wf) (st : Stop) : (s.raise st).mem.wf := h

/-- Placing an instruction word keeps it. -/
theorem withFetchWord_mem_wf {s : State} (h : s.mem.wf) (nbits w : Nat) :
    (s.withFetchWord nbits w).mem.wf := by
  simp only [State.withFetchWord]
  split
  · exact Memory.wf_writeWord h _ _
  · exact h

/-- A load of an image keeps it. -/
theorem load_mem_wf {s t : State} (h : s.mem.wf) {image : List Word} (hl : s.load image = some t) :
    t.mem.wf := by
  simp only [State.load] at hl
  split at hl
  · cases hl
    exact Memory.wf_writeWords h _ _
  · cases hl

/-- The state after reset has it. -/
theorem reset_mem_wf : State.reset.mem.wf := Memory.wf_nil

/-! ### Addresses (R41) -/

theorem wordAligned_iff (a : Word) : wordAligned a = true ↔ a.toNat % 4 = 0 := by
  have : (a.extractLsb' 0 2).toNat = a.toNat % 4 := by simp
  simp only [wordAligned, beq_iff_eq]
  constructor
  · intro h
    rw [← this, h]
    rfl
  · intro h
    apply BitVec.eq_of_toNat_eq
    rw [this, h]
    rfl

theorem inRange_iff (s : State) (a : Word) :
    s.inRange a = true ↔ s.cfg.base.toNat ≤ a.toNat ∧ a.toNat < s.cfg.top := by
  simp [State.inRange]

theorem validAddr_iff (s : State) (a : Word) : s.validAddr a = true ↔
    s.cfg.base.toNat ≤ a.toNat ∧ a.toNat < s.cfg.top ∧ a.toNat % 4 = 0 := by
  simp [State.validAddr, inRange_iff, wordAligned_iff, and_assoc]

/-- The end of the memory is a multiple of 4 where the base is. -/
theorem top_mod_four {c : Config} (h : c.wf) : c.top % 4 = 0 := by
  have := h.1
  simp only [Config.top]
  omega

/-- All four bytes of a valid address's word lie in the memory array. -/
theorem validAddr_word_in_array {s : State} (hc : s.cfg.wf) {a : Word} (h : s.validAddr a = true) :
    s.cfg.base.toNat ≤ a.toNat ∧ a.toNat + 4 ≤ s.cfg.top := by
  have := (validAddr_iff s a).mp h
  have := top_mod_four hc
  omega

/-! ### The errors of the memory ports (R81) and the check of a data access (R44) -/

/-- All a port can answer. -/
theorem portError_cases (s : State) (a : Word) :
    (s.inRange a = false ∧ s.portError a = some .range) ∨
    (s.inRange a = true ∧ wordAligned a = false ∧ s.portError a = some .align) ∨
    (s.validAddr a = true ∧ s.portError a = none) := by
  simp only [State.portError, State.validAddr]
  cases s.inRange a <;> cases wordAligned a <;> simp

theorem portError_eq_none_iff (s : State) (a : Word) :
    s.portError a = none ↔ s.validAddr a = true := by
  simp only [State.portError, State.validAddr]
  cases s.inRange a <;> cases wordAligned a <;> simp

/-- All the check can answer. -/
theorem dataCheck_cases (s : State) (ea : Word) :
    (s.inRange ea = false ∧ s.dataCheck ea = some (.memRangeError ea s.pc)) ∨
    (s.inRange ea = true ∧ wordAligned ea = false ∧
      s.dataCheck ea = some (.memAlignError ea s.pc)) ∨
    (s.validAddr ea = true ∧ s.dataCheck ea = none) := by
  rcases portError_cases s ea with ⟨h, hp⟩ | ⟨h, ha, hp⟩ | ⟨h, hp⟩ <;>
    simp [State.dataCheck, State.dataStop, *]

theorem dataCheck_eq_none_iff (s : State) (ea : Word) :
    s.dataCheck ea = none ↔ s.validAddr ea = true := by
  simp [State.dataCheck, portError_eq_none_iff]

/-! ### Fetch and decode (R82, R91) -/

/-- All a fetch can answer. -/
theorem fetch_eq (s : State) : s.fetch =
    if s.validAddr s.pc then .ok (s.mem.readWord s.pc.toNat) else .error (.fetchError s.pc) := by
  cases hp : s.portError s.pc with
  | none => simp [State.fetch, hp, (portError_eq_none_iff s _).mp hp]
  | some e =>
    have hv : ¬ s.validAddr s.pc = true := fun h => by
      simp [(portError_eq_none_iff s _).mpr h] at hp
    simp [State.fetch, hp, hv]

/-- All a fetch and decode can answer. -/
theorem fetchInstr_cases (s : State) :
    (s.validAddr s.pc = false ∧ s.fetchInstr = .error (.fetchError s.pc)) ∨
    (s.validAddr s.pc = true ∧ ∃ why, decodeWord (s.mem.readWord s.pc.toNat) = .error why ∧
      s.fetchInstr = .error (.decodeError (s.mem.readWord s.pc.toNat) s.pc)) ∨
    (s.validAddr s.pc = true ∧ ∃ i, decodeWord (s.mem.readWord s.pc.toNat) = .ok i ∧
      s.fetchInstr = .ok i) := by
  simp only [State.fetchInstr, fetch_eq]
  cases s.validAddr s.pc
  · exact .inl ⟨rfl, rfl⟩
  · cases h : decodeWord (s.mem.readWord s.pc.toNat) with
    | error why => exact .inr (.inl ⟨rfl, why, rfl, by simp [h]⟩)
    | ok i => exact .inr (.inr ⟨rfl, i, rfl, by simp [h]⟩)

end Sys2Proof.Machine
end

