-- ==== Sys2Proof/Laws/PerInstr.lean ====
section
/-!
SUPPORT. A fact of every instruction as syntax: its encoding matches its own row of R66's table. The
rows are copied from the table and the encoder is written from the field layouts, so the two check
each other.
-/

namespace Sys2Proof.Laws.MatchesTable

/-- The instruction's word matches the instruction's row of the opcode table (R66). -/
def Statement (i : Instr) : Prop := encode i &&& (opcodeRow i).mask = (opcodeRow i).pattern

theorem sll (rs rt rd : Reg) (shamt : BitVec 5) : Statement (.sll rs rt rd shamt) :=
  rFormWord_and_mask rs rt rd shamt _
theorem srl (rs rt rd : Reg) (shamt : BitVec 5) : Statement (.srl rs rt rd shamt) :=
  rFormWord_and_mask rs rt rd shamt _
theorem jr (rs rt rd : Reg) (shamt : BitVec 5) : Statement (.jr rs rt rd shamt) :=
  rFormWord_and_mask rs rt rd shamt _
theorem addu (rs rt rd : Reg) (shamt : BitVec 5) : Statement (.addu rs rt rd shamt) :=
  rFormWord_and_mask rs rt rd shamt _
theorem subu (rs rt rd : Reg) (shamt : BitVec 5) : Statement (.subu rs rt rd shamt) :=
  rFormWord_and_mask rs rt rd shamt _
theorem and (rs rt rd : Reg) (shamt : BitVec 5) : Statement (.and rs rt rd shamt) :=
  rFormWord_and_mask rs rt rd shamt _
theorem or (rs rt rd : Reg) (shamt : BitVec 5) : Statement (.or rs rt rd shamt) :=
  rFormWord_and_mask rs rt rd shamt _
theorem slt (rs rt rd : Reg) (shamt : BitVec 5) : Statement (.slt rs rt rd shamt) :=
  rFormWord_and_mask rs rt rd shamt _
theorem j (target : BitVec 26) : Statement (.j target) := jFormWord_and_mask _ target
theorem jal (target : BitVec 26) : Statement (.jal target) := jFormWord_and_mask _ target
theorem beq (rs rt : Reg) (imm : BitVec 16) : Statement (.beq rs rt imm) :=
  iFormWord_and_mask _ rs rt imm
theorem bne (rs rt : Reg) (imm : BitVec 16) : Statement (.bne rs rt imm) :=
  iFormWord_and_mask _ rs rt imm
theorem addiu (rs rt : Reg) (imm : BitVec 16) : Statement (.addiu rs rt imm) :=
  iFormWord_and_mask _ rs rt imm
theorem andi (rs rt : Reg) (imm : BitVec 16) : Statement (.andi rs rt imm) :=
  iFormWord_and_mask _ rs rt imm
theorem ori (rs rt : Reg) (imm : BitVec 16) : Statement (.ori rs rt imm) :=
  iFormWord_and_mask _ rs rt imm
theorem lui (rs rt : Reg) (imm : BitVec 16) : Statement (.lui rs rt imm) :=
  iFormWord_and_mask _ rs rt imm
theorem lw (rs rt : Reg) (imm : BitVec 16) : Statement (.lw rs rt imm) :=
  iFormWord_and_mask _ rs rt imm
theorem sw (rs rt : Reg) (imm : BitVec 16) : Statement (.sw rs rt imm) :=
  iFormWord_and_mask _ rs rt imm
theorem halt : Statement .halt := rfl

end Sys2Proof.Laws.MatchesTable
end

