-- ==== Sys2Proof/Laws/Step.lean ====
section
/-!
SUPPORT. What a step can do, said once: the inversion lemma of `step` and, for each instruction
family, of `exec`.
-/

namespace Sys2Proof.Machine

/-- A step that has a next state began in a running one and did one of three things: it took the
host's stop, it stopped at the fetch or decode, or it ran the decoded instruction. -/
theorem step_cases {s t : State} (h : step s = .next t) :
    s.status = .running ∧
    ((s.host.head? = some .stop ∧ t = (s.sampleHost.2).raise .hostStop) ∨
     (s.host.head? ≠ some .stop ∧
      ((∃ e, (s.sampleHost.2).fetchInstr = .error e ∧ t = (s.sampleHost.2).raise (.error e)) ∨
       (∃ i, (s.sampleHost.2).fetchInstr = .ok i ∧ exec i s.sampleHost.2 = .next t)))) := by
  simp only [step] at h
  split at h
  · rename_i hrun
    refine ⟨hrun, ?_⟩
    have hs := sampleHost_eq s
    split at h
    · rename_i s' heq
      left
      rw [hs] at heq
      obtain ⟨h1, h2⟩ := Prod.mk.injEq .. ▸ heq
      constructor
      · cases hh : s.host.head? <;> simp_all
      · rw [hs]
        simp only at h2 ⊢
        rw [h2]
        injection h with h
        exact h.symm
    · rename_i s' heq
      right
      have h1 : s.host.head?.getD .proceed = .proceed := by
        have := congrArg Prod.fst heq
        simpa [hs] using this
      have h2 : s.sampleHost.2 = s' := congrArg Prod.snd heq
      subst h2
      constructor
      · intro hh
        simp [hh] at h1
      · split at h
        · rename_i e he
          injection h with h
          exact .inl ⟨e, he, h.symm⟩
        · rename_i i hi
          exact .inr ⟨i, hi, h⟩
  · cases h

/-- A step of a running state whose host does not say stop: the answer is taken, the instruction is
fetched and run. -/
theorem step_of_proceed {s : State} (hr : s.status = .running) (hh : s.host.head? ≠ some .stop) :
    step s = match ({ s with host := s.host.tail } : State).fetchInstr with
      | .error e => .next (({ s with host := s.host.tail } : State).raise (.error e))
      | .ok i => exec i { s with host := s.host.tail } := by
  have ha : s.host.head?.getD .proceed = .proceed := by
    cases h : s.host.head? with
    | none => rfl
    | some a => cases a <;> simp_all
  cases hf : ({ s with host := s.host.tail } : State).fetchInstr <;>
    simp only [step, if_pos hr, sampleHost_eq, ha, hf]

/-- What an instruction can do to a state: stop at the zero word, stop at a data access, or commit. -/
theorem exec_cases (i : Instr) (s : State) :
    (i = .halt ∧ exec i s = .next (s.raise (.halt s.pc))) ∨
    (∃ rs rt imm e, (i = .lw rs rt imm ∨ i = .sw rs rt imm) ∧
      s.dataCheck (s.effAddr rs imm) = some e ∧ exec i s = .next (s.raise (.error e))) ∨
    (∃ rs rt imm, i = .sw rs rt imm ∧ s.validAddr (s.effAddr rs imm) = true ∧
      exec i s = .next (s.commit (some (s.effAddr rs imm, s.readReg rt)) none (seqPc s.pc))) ∨
    (i ≠ .halt ∧ (∀ rs rt imm, i ≠ .sw rs rt imm) ∧
      ∃ v npc, exec i s = .next (s.commit none ((dest i).map (·, v)) npc)) := by
  cases i with
  | halt => exact .inl ⟨rfl, rfl⟩
  | lw rs rt imm =>
    cases h : s.dataCheck (s.effAddr rs imm) with
    | some e => exact .inr (.inl ⟨rs, rt, imm, e, .inl rfl, h, by simp only [exec, execLw, h]⟩)
    | none =>
      refine .inr (.inr (.inr ⟨nofun, nofun, s.mem.readWord (s.effAddr rs imm).toNat, seqPc s.pc, ?_⟩))
      simp only [exec, execLw, h, dest, Option.map_some]
  | sw rs rt imm =>
    cases h : s.dataCheck (s.effAddr rs imm) with
    | some e => exact .inr (.inl ⟨rs, rt, imm, e, .inr rfl, h, by simp only [exec, execSw, h]⟩)
    | none =>
      exact .inr (.inr (.inl ⟨rs, rt, imm, rfl, (dataCheck_eq_none_iff s _).mp h,
        by simp only [exec, execSw, h]⟩))
  | jr rs rt rd shamt => exact .inr (.inr (.inr ⟨nofun, nofun, 0, _, rfl⟩))
  | j target => exact .inr (.inr (.inr ⟨nofun, nofun, 0, _, rfl⟩))
  | beq rs rt imm => exact .inr (.inr (.inr ⟨nofun, nofun, 0, _, rfl⟩))
  | bne rs rt imm => exact .inr (.inr (.inr ⟨nofun, nofun, 0, _, rfl⟩))
  | sll | srl | addu | subu | and | or | slt | jal | addiu | andi | ori | lui =>
    exact .inr (.inr (.inr ⟨nofun, nofun, _, _, rfl⟩))

end Sys2Proof.Machine
end

