-- ==== Sys2Proof/Machine/Assembly.lean ====
section
/-!
DEFINITION. The assembler's view of the instructions (spec/30_encoding.md R72 to R74): the register
names, the operand order of each instruction and the expansions of the pseudo-instructions. The names
and the expansions are the spec's own, from general knowledge (G6, G7); the block itself knows only
the words.
-/

namespace Sys2Proof.Machine

/-- The conventional name of a register (R73). -/
def regName (r : Reg) : String :=
  (["$zero", "$at", "$v0", "$v1", "$a0", "$a1", "$a2", "$a3",
    "$t0", "$t1", "$t2", "$t3", "$t4", "$t5", "$t6", "$t7",
    "$s0", "$s1", "$s2", "$s3", "$s4", "$s5", "$s6", "$s7",
    "$t8", "$t9", "$k0", "$k1", "$gp", "$sp", "$fp", "$ra"] : List String).getD r.val ""

/-- An R-form line: `op rd, rs, rt`. -/
def asmR (op : String) (rd rs rt : Reg) : String :=
  op ++ " " ++ regName rd ++ ", " ++ regName rs ++ ", " ++ regName rt

/-- A shift line: `op rd, rt, shamt`. The field rs is not written; the spec's programs hold the same
register in rs and rt (R72). -/
def asmShift (op : String) (rd rt : Reg) (shamt : BitVec 5) : String :=
  op ++ " " ++ regName rd ++ ", " ++ regName rt ++ ", " ++ toString shamt.toNat

/-- An immediate line: two registers, then the immediate as a signed decimal. -/
def asmI (op : String) (r q : Reg) (imm : BitVec 16) : String :=
  op ++ " " ++ regName r ++ ", " ++ regName q ++ ", " ++ toString imm.toInt

/-- A memory line: `op rt, imm(rs)`. -/
def asmMem (op : String) (rt rs : Reg) (imm : BitVec 16) : String :=
  op ++ " " ++ regName rt ++ ", " ++ toString imm.toInt ++ "(" ++ regName rs ++ ")"

/-- The assembly line of an instruction (R72). The zero word has none of its own: it is the word a
standard assembler writes for `nop` (R74, R165). -/
def asm : Instr → String
  | .sll _ rt rd shamt => asmShift "sll" rd rt shamt
  | .srl _ rt rd shamt => asmShift "srl" rd rt shamt
  | .jr rs _ _ _ => "jr " ++ regName rs
  | .addu rs rt rd _ => asmR "addu" rd rs rt
  | .subu rs rt rd _ => asmR "subu" rd rs rt
  | .and rs rt rd _ => asmR "and" rd rs rt
  | .or rs rt rd _ => asmR "or" rd rs rt
  | .slt rs rt rd _ => asmR "slt" rd rs rt
  | .j target => "j " ++ toString target.toNat
  | .jal target => "jal " ++ toString target.toNat
  | .beq rs rt imm => asmI "beq" rs rt imm
  | .bne rs rt imm => asmI "bne" rs rt imm
  | .addiu rs rt imm => asmI "addiu" rt rs imm
  | .andi rs rt imm => asmI "andi" rt rs imm
  | .ori rs rt imm => asmI "ori" rt rs imm
  | .lui _ rt imm => "lui " ++ regName rt ++ ", " ++ toString imm.toNat
  | .lw rs rt imm => asmMem "lw" rt rs imm
  | .sw rs rt imm => asmMem "sw" rt rs imm
  | .halt => "nop"

/-- The pseudo-instructions of R74. -/
inductive Pseudo where
  | nop
  | move (rd rs : Reg)
  /-- `li` of a signed 16-bit value. -/
  | liShort (rt : Reg) (imm : BitVec 16)
  /-- `li` of a 32-bit value, and `la` of an address by `lui` + `ori`. -/
  | liWord (rt : Reg) (value : Word)
  /-- `la` of an address by `lui` + `addiu`. R74 allows either form of `la` and does not say which one
  an assembler takes; that the two are two pseudo-instructions here is the model's DESIGN CHOICE
  (notes/assumptions/18.md). -/
  | laAddiu (rt : Reg) (address : Word)
  | b (offset : BitVec 16)
  deriving DecidableEq, Repr

/-- The expansion of a pseudo-instruction (R74). Each has a caveat in this block: `nop` halts the
run, `move` and `liShort` need x[0] = 0, `liWord` gives the value only where the immediate of `ori`
is zero-extended or its top bit is 0. `laAddiu` rounds the upper half up, which R74 names as the way
round that caveat: `addiu` then takes back what its sign extension adds. -/
def Pseudo.expand : Pseudo → List Instr
  | .nop => [.halt]
  | .move rd rs => [.addu rs 0 rd 0]
  | .liShort rt imm => [.addiu 0 rt imm]
  | .liWord rt value => [.lui 0 rt (value.extractLsb' 16 16), .ori rt rt (value.extractLsb' 0 16)]
  | .laAddiu rt address =>
    [.lui 0 rt ((address + 0x8000).extractLsb' 16 16), .addiu rt rt (address.extractLsb' 0 16)]
  | .b offset => [.beq 0 0 offset]

end Sys2Proof.Machine
end

