-- ==== Sys2Proof/Tests/Slice0.lean ====
section
/-!
SUPPORT. The model's own tests: the check of well-formedness, a word of every constructor written out
from the encodings of spec/30_encoding.md R60 to R67, one or two vectors of spec/95_test_vectors.md
for every instruction (each about one step), and for every statement with hypotheses a concrete
instance that meets them all. Expected results come from the spec's tables, never from the model.
-/

namespace Sys2Proof.Tests

open Sys2Proof.Machine Sys2Proof.Claims

/-! ### Helpers -/

/-- A configuration at the example's addresses with the three policies given. -/
def configWith (r0 : Bool) (ext : ImmExt) (src : ShiftSrc) : Config :=
  { Config.example with r0Hardwired := r0, logicalImmExt := ext, shiftSrc := src }

/-- The reset state of a configuration with some registers set and a word at the PC. -/
def startAt (c : Config) (w : Nat) (regs : List (Reg × Word)) : State :=
  (regs.foldl (fun s p => { s with regs := s.regs.set p.1.val p.2 }) (State.resetWith c)).withFetchWord
    32 w

/-- The same under the example configuration. -/
def start (w : Nat) (regs : List (Reg × Word)) : State := startAt Config.example w regs

/-- The state with the PC moved. -/
def withPc (s : State) (pc : Word) : State := { s with pc := pc }

/-- The state with a word of memory set. -/
def withWord (s : State) (a : Nat) (w : Word) : State := { s with mem := s.mem.writeWord a w }

/-- The next state of an outcome that has one. -/
def nextOr (s : State) : Host.Outcome State Fault Refusal → State
  | .next t => t
  | .fault _ => s
  | .refused _ => s

/-- The state after one step. -/
def after (s : State) : State := nextOr s (step s)

/-- The state after one instruction. -/
def run (i : Instr) (s : State) : State := nextOr s (exec i s)

/-! ### Well-formedness (R68) -/

theorem test_zero_shift_is_ill_formed : Instr.isNotZeroShift (.sll 0 0 0 0) = false := by decide
theorem test_shift_by_one_is_well_formed : Instr.WellFormed (.sll 0 0 0 1) = true := by decide

/-! ### Decoding, one word per constructor, its fields written out in binary from R61 to R63 and R66 -/

theorem test_decode_sll : decodeWord 0b00000001001010010100000100000000#32 = .ok (.sll 9 9 8 4) := by decide
theorem test_decode_srl : decodeWord 0b00000001011010110111111100000010#32 = .ok (.srl 11 11 15 28) := by decide
theorem test_decode_jr : decodeWord 0b00000011111000000000000000001000#32 = .ok (.jr 31 0 0 0) := by decide
theorem test_decode_addu : decodeWord 0b00000001001010100100011111100001#32 = .ok (.addu 9 10 8 31) := by decide
theorem test_decode_subu : decodeWord 0b00000001001010100100000000100011#32 = .ok (.subu 9 10 8 0) := by decide
theorem test_decode_and : decodeWord 0b00000001001010100100000000100100#32 = .ok (.and 9 10 8 0) := by decide
theorem test_decode_or : decodeWord 0b00000001001010100100000000100101#32 = .ok (.or 9 10 8 0) := by decide
theorem test_decode_slt : decodeWord 0b00000001001010100100000000101010#32 = .ok (.slt 9 10 8 0) := by decide
theorem test_decode_j : decodeWord 0b00001000000100000000000000000100#32 = .ok (.j 0x100004) := by decide
theorem test_decode_jal : decodeWord 0b00001100000100000000000000000101#32 = .ok (.jal 0x100005) := by decide
theorem test_decode_beq : decodeWord 0b00010001000010010000000000001000#32 = .ok (.beq 8 9 8) := by decide
theorem test_decode_bne : decodeWord 0b00010101000010011111111111111101#32 = .ok (.bne 8 9 0xFFFD) := by decide
theorem test_decode_addiu : decodeWord 0b00100101001010001111111111111111#32 = .ok (.addiu 9 8 0xFFFF) := by decide
theorem test_decode_andi : decodeWord 0b00110001001010001000000000000000#32 = .ok (.andi 9 8 0x8000) := by decide
theorem test_decode_ori : decodeWord 0b00110101001010001111111111111111#32 = .ok (.ori 9 8 0xFFFF) := by decide
theorem test_decode_lui : decodeWord 0b00111101001010001111111111111111#32 = .ok (.lui 9 8 0xFFFF) := by decide
theorem test_decode_lw : decodeWord 0b10001101001010001111111111111100#32 = .ok (.lw 9 8 0xFFFC) := by decide
theorem test_decode_sw : decodeWord 0b10101111101010001111111111111100#32 = .ok (.sw 29 8 0xFFFC) := by decide
theorem test_decode_halt : decodeWord 0b00000000000000000000000000000000#32 = .ok (.halt) := by decide

/-- Every word above but the sentinel's is one that its row's mask and pattern select (the premise of
the decoding clauses of the result statements). -/
theorem test_words_match_rows :
    [0b00000001001010010100000100000000#32,
     0b00000001011010110111111100000010#32,
     0b00000011111000000000000000001000#32,
     0b00000001001010100100011111100001#32,
     0b00000001001010100100000000100011#32,
     0b00000001001010100100000000100100#32,
     0b00000001001010100100000000100101#32,
     0b00000001001010100100000000101010#32].map (· &&& 0xFC00003F) =
      [0x00, 0x02, 0x08, 0x21, 0x23, 0x24, 0x25, 0x2A] ∧
    [0b00001000000100000000000000000100#32,
     0b00001100000100000000000000000101#32,
     0b00010001000010010000000000001000#32,
     0b00010101000010011111111111111101#32,
     0b00100101001010001111111111111111#32,
     0b00110001001010001000000000000000#32,
     0b00110101001010001111111111111111#32,
     0b00111101001010001111111111111111#32,
     0b10001101001010001111111111111100#32,
     0b10101111101010001111111111111100#32].map (· &&& 0xFC000000) =
      [0x08000000, 0x0C000000, 0x10000000, 0x14000000, 0x24000000, 0x30000000, 0x34000000,
       0x3C000000, 0x8C000000, 0xAC000000] := by decide
theorem test_unknown_opcode : decodeWord 0xFC000000 = .error (.unknownOpcode 0x3F) := by decide
theorem test_unknown_funct : decodeWord 0x012A4020 = .error (.unknownFunct 0x20) := by decide
theorem test_truncated_bytes : decodeBytes [0x24, 0x09, 0x00] = .error (.truncated 3) := by decide
theorem test_image_is_big_endian :
    imageWords [0x24, 0x09, 0x00, 0x05, 0, 0, 0, 0] = some [0x24090005, 0] := by decide
theorem test_expansion_of_nop_halts : Pseudo.nop.expand.map encode = [0x00000000] := by decide
theorem test_expansion_of_move : (Pseudo.move 9 8).expand.map encode = [0x01004821] := by decide
/-- R81, R44, R45: each port's error at the ends of the array; a misaligned address past the end is
out of range. -/
theorem test_port_errors :
    (State.reset.memoryInterface 0x00404000 (some 0x00403FFC) false).fetch = ⟨none, some .range⟩ ∧
    (State.reset.memoryInterface 0x00404002 (some 0x003FFFFC) true).fetch = ⟨none, some .range⟩ ∧
    (State.reset.memoryInterface 0x00400002 (some 0x003FFFFC) true).fetch = ⟨none, some .align⟩ ∧
    (State.reset.memoryInterface 0x00400002 (some 0x003FFFFC) true).data = ⟨none, some .range⟩ ∧
    (State.reset.memoryInterface 0x00400002 (some 0x00403FFC) false).data = ⟨some 0, none⟩ ∧
    (State.reset.memoryInterface 0x00400002 (some 0x00403FFD) false).data = ⟨none, some .align⟩ := by
  decide
/-- R74, `la` by `lui` + `addiu` with a rounded-up upper half; the words by R66. -/
theorem test_expansion_of_la_addiu :
    (Pseudo.laAddiu 8 0x12348000).expand.map encode = [0x3C081235, 0x25088000] := by decide

/-! ### Results (spec/95_test_vectors.md, sections 2.1 to 2.4) -/

theorem test_addu_wraps : (after (start 0x012A4021 [(9, 0xFFFFFFFF), (10, 1)])).readReg 8 = 0 := by decide
theorem test_addu_reads_before_it_writes : (after (start 0x01084021 [(8, 0x40000001)])).readReg 8 = 0x80000002 := by decide
theorem test_subu_borrows : (after (start 0x012A4023 [(9, 5), (10, 7)])).readReg 8 = 0xFFFFFFFE := by decide
theorem test_sll_shifts_rs : (after (start 0x00094100 [(0, 1), (9, 3)])).readReg 8 = 0x10 := by decide
theorem test_sll_shifts_rt_by_parameter :
    (after (startAt (configWith false .sign .rt) 0x00094100 [(9, 3)])).readReg 8 = 0x30 := by decide
theorem test_srl_is_logical : (after (start 0x01294102 [(9, 0xFFFFFFFF)])).readReg 8 = 0x0FFFFFFF := by decide
theorem test_and : (after (start 0x012A4024 [(9, 0x0F0F00FF), (10, 0x00FF0F0F)])).readReg 8 = 0x000F000F := by decide
theorem test_or : (after (start 0x012A4025 [(9, 0x0F0F00FF), (10, 0x00FF0F0F)])).readReg 8 = 0x0FFF0FFF := by decide
theorem test_slt_is_signed : (after (start 0x012A402A [(9, 0xFFFFFFFF), (10, 1)])).readReg 8 = 1 := by decide
theorem test_slt_is_not_unsigned : (after (start 0x012A402A [(9, 1), (10, 0xFFFFFFFF)])).readReg 8 = 0 := by decide
theorem test_addiu_sign_extends : (after (start 0x25288000 [(9, 0x00010000)])).readReg 8 = 0x00008000 := by decide
theorem test_addiu_writes_register_zero : (after (start 0x24000005 [])).readReg 0 = 5 := by decide
theorem test_andi_sign : (after (start 0x31288000 [(9, 0xFFFFFFFF)])).readReg 8 = 0xFFFF8000 := by decide
theorem test_andi_zero :
    (after (startAt (configWith false .zero .rs) 0x31288000 [(9, 0xFFFFFFFF)])).readReg 8 = 0x00008000 := by
  decide
theorem test_ori_sign : (after (start 0x3528FFFF [(9, 0)])).readReg 8 = 0xFFFFFFFF := by decide
theorem test_ori_zero :
    (after (startAt (configWith false .zero .rs) 0x3528FFFF [])).readReg 8 = 0x0000FFFF := by decide
theorem test_lui_ignores_rs : (after (start 0x3D28FFFF [(9, 0x55)])).readReg 8 = 0xFFFF0000 := by decide
theorem test_jr_takes_unaligned_target : (after (start 0x01000008 [(8, 0x00400002)])).pc = 0x00400002 := by
  decide
theorem test_j_region_of_next_pc :
    (run (.j 4) (withPc (State.resetWith ⟨0x0FFFFFF0, 8, 0, false, .sign, .rs⟩) 0x0FFFFFFC)).pc =
      0x10000010 := by decide
theorem test_jal_links :
    (after (start 0x0C100004 [])).pc = 0x00400010 ∧ (after (start 0x0C100004 [])).readReg 31 = 0x00400004 := by
  decide
theorem test_jal_report :
    (after (start 0x0C100004 [])).out = some (.report ⟨0x00400010, some 31, none⟩) := by decide
theorem test_beq_taken : (after (start 0x11080008 [(8, 0x7B)])).pc = 0x00400024 := by decide
theorem test_beq_not_taken : (after (start 0x11090008 [(8, 1), (9, 2)])).pc = 0x00400004 := by decide
theorem test_bne_backwards : (run (.bne 8 9 0xFFFD) (withPc (start 0 [(8, 1)]) 0x00400010)).pc = 0x00400008 := by
  decide
theorem test_bne_never_taken_on_itself : (after (start 0x15080064 [(8, 7)])).pc = 0x00400004 := by decide
theorem test_lw_replaces_its_base :
    (after (withWord (start 0x8D080000 [(8, 0x00400008)]) 0x00400008 0xCAFEF00D)).readReg 8 = 0xCAFEF00D := by
  decide
theorem test_lw_at_reset_stack_pointer :
    (after (start 0x8FA80000 [])).status = .faulted (.memRangeError 0x00404000 0x00400000) := by decide
theorem test_sw_at_the_last_word :
    (after (start 0xAFA8FFFC [(8, 7)])).mem.readWord 0x00403FFC = 7 ∧
    (after (start 0xAFA8FFFC [(8, 7)])).out = some (.report ⟨0x00400004, none, some 0x00403FFC⟩) := by decide
theorem test_sw_range_before_alignment :
    (after (start 0xAD280001 [(9, 0x00404000), (8, 5)])).status =
      .faulted (.memRangeError 0x00404001 0x00400000) := by decide
theorem test_zero_word_halts :
    (after (start 0x00000000 [])).out = some (.stop (.halt 0x00400000)) ∧
    (after (start 0x00000000 [])).status = .halted := by decide
theorem test_register_zero_hard_wired :
    (after (startAt (configWith true .sign .rs) 0x012A0021 [(9, 5), (10, 7)])).readReg 0 = 0 ∧
    (after (startAt (configWith true .sign .rs) 0x012A0021 [(9, 5), (10, 7)])).out =
      some (.report ⟨0x00400004, some 0, none⟩) := by decide
theorem test_fetch_error_at_top :
    (after (withPc State.reset 0x00404000)).status = .faulted (.fetchError 0x00404000) := by decide
theorem test_decode_error :
    (after (start 0x012A402B [])).status = .faulted (.decodeError 0x012A402B 0x00400000) := by decide
theorem test_reset_stack_pointer : State.reset.readReg 29 = 0x00404000 ∧ State.reset.pc = 0x00400000 := by
  decide

/-! ### Witnesses: for each statement with hypotheses, an instance that meets them all -/

/-- DecodeOfEncode. -/
theorem witness_well_formed : Instr.WellFormed (.sw 29 8 0xFFFC) = true := by decide
/-- EncodeOfDecode; WordsMatchTheirTableRow, both clauses. -/
theorem witness_decodes : decodeWord 0xAFA8FFFC = .ok (.sw 29 8 0xFFFC) ∧ (0xAFA8FFFC : Word) ≠ 0 ∧
    (⟨0xAC000000, 0xFC000000⟩ : OpcodeRow) ∈ InstructionRows ∧
    (0xAFA8FFFC : Word) &&& 0xFC000000 = 0xAC000000 := by decide
/-- WordsMatchTheirTableRow at the row that shares its pattern with the sentinel. -/
theorem witness_sll_row : (0x00000040 : Word) ≠ 0 ∧
    (⟨0x00000000, 0xFC00003F⟩ : OpcodeRow) ∈ InstructionRows ∧
    (0x00000040 : Word) &&& 0xFC00003F = 0x00000000 := by decide
/-- OtherWordsAreIllegal, an opcode outside the map and a funct outside it, each fetched in a state. -/
theorem witness_illegal_words :
    (0xFC000000 : Word) ≠ 0 ∧ (∀ row ∈ InstructionRows, (0xFC000000 : Word) &&& row.mask ≠ row.pattern) ∧
    (start 0xFC000000 []).fetch = .ok 0xFC000000 ∧
    (0x0000003F : Word) ≠ 0 ∧ (∀ row ∈ InstructionRows, (0x0000003F : Word) &&& row.mask ≠ row.pattern) ∧
    (start 0x0000003F []).fetch = .ok 0x0000003F := by decide
/-- UnusedFieldsDoNotMatter, both shift settings. -/
theorem witness_shift_settings :
    (State.resetWith (configWith false .sign .rs)).cfg.shiftSrc = .rs ∧
    (State.resetWith (configWith false .sign .rt)).cfg.shiftSrc = .rt := by decide
/-- JrJumpsToRegister, JumpKeepsRegionOfNextPc, JalLinksNextPc, BeqBranchesOnEqual,
BneBranchesOnUnequal: the target of each is no valid address and the run goes on. -/
theorem witness_bad_targets :
    ∀ t ∈ [run (.jr 8 0 0 0) (start 0 [(8, 0x00400002)]), run (.j 0) (start 0 []), run (.jal 0) (start 0 []),
      run (.beq 0 0 0x8000) (start 0 []), run (.bne 0 29 0x7FFF) (start 0 [])],
      Proceeds t ∧ ¬ Valid t t.pc := by
  simp only [Proceeds, Valid, InArray]
  decide
/-- BranchesAreComplements, equal and unequal operands. -/
theorem witness_complements :
    (∀ s ∈ [start 0 [(8, 5), (9, 5)], start 0 [(8, 5), (9, 6)]],
      exec (.beq 8 9 8) s = .next (run (.beq 8 9 8) s) ∧ exec (.bne 8 9 8) s = .next (run (.bne 8 9 8) s)) ∧
    (start 0 [(8, 5), (9, 5)]).readReg 8 = (start 0 [(8, 5), (9, 5)]).readReg 9 ∧
    (start 0 [(8, 5), (9, 6)]).readReg 8 ≠ (start 0 [(8, 5), (9, 6)]).readReg 9 := by
  refine ⟨?_, by decide, by decide⟩
  intro s hs
  simp only [List.mem_cons, List.not_mem_nil, or_false] at hs
  rcases hs with rfl | rfl <;> exact ⟨rfl, rfl⟩
/-- CallReturnsAfterTheJal. -/
theorem witness_call :
    exec (.jal 0x100005) State.reset = .next (run (.jal 0x100005) State.reset) ∧
    exec (.jr 31 0 0 0) (run (.jal 0x100005) State.reset) =
      .next (run (.jr 31 0 0 0) (run (.jal 0x100005) State.reset)) := ⟨rfl, rfl⟩
/-- OnlyJrUnalignsThePc. -/
theorem witness_aligned :
    (∀ rs rt rd shamt, Instr.beq 0 0 0xFFFF ≠ .jr rs rt rd shamt) ∧
    State.reset.pc.extractLsb' 0 2 = 0b00#2 ∧
    exec (.beq 0 0 0xFFFF) State.reset = .next (run (.beq 0 0 0xFFFF) State.reset) :=
  ⟨nofun, by decide, rfl⟩
/-- LwLoadsOrStops and SwStoresOrStops: the first and the last valid address, the addresses just
outside the array, and misaligned addresses at both its ends (R44). -/
theorem witness_data_addresses :
    Valid State.reset 0x00400000 ∧ Valid State.reset 0x00403FFC ∧
    ¬ InArray State.reset 0x003FFFFF ∧ ¬ InArray State.reset 0x00404000 ∧
    (InArray State.reset 0x00400001 ∧ ¬ Valid State.reset 0x00400001) ∧
    (InArray State.reset 0x00403FFF ∧ ¬ Valid State.reset 0x00403FFF) ∧
    (0x00400000 : Word) = (start 0 [(9, 0x00400001)]).readReg 9 + (0xFFFF : BitVec 16).signExtend 32 := by
  simp only [Valid, InArray]
  decide
/-- LoadSeesTheLastStore, the same word and another one. -/
theorem witness_store_then_load :
    State.reset.mem.wf ∧
    exec (.sw 29 29 0xFFFC) State.reset = .next (run (.sw 29 29 0xFFFC) State.reset) ∧
    (run (.sw 29 29 0xFFFC) State.reset).status = .running ∧
    (∀ imm ∈ [0xFFFC, 0xFFF8], exec (.lw 29 8 imm) (run (.sw 29 29 0xFFFC) State.reset) =
      .next (run (.lw 29 8 imm) (run (.sw 29 29 0xFFFC) State.reset)) ∧
      (run (.lw 29 8 imm) (run (.sw 29 29 0xFFFC) State.reset)).status = .running) := by
  refine ⟨by decide, rfl, by decide, ?_⟩
  intro imm h
  simp only [List.mem_cons, List.not_mem_nil, or_false] at h
  rcases h with rfl | rfl <;> exact ⟨rfl, by decide⟩
/-- StoreIsSeenByFetch: a store over the next instruction. -/
theorem witness_store_over_next_instruction :
    (start 0 [(8, 0x00400004), (9, 0x00000040)]).mem.wf ∧
    exec (.sw 8 9 0) (start 0 [(8, 0x00400004), (9, 0x00000040)]) =
      .next (run (.sw 8 9 0) (start 0 [(8, 0x00400004), (9, 0x00000040)])) ∧
    Valid (start 0 [(8, 0x00400004), (9, 0x00000040)])
      ((start 0 [(8, 0x00400004), (9, 0x00000040)]).readReg 8 + (0 : BitVec 16).signExtend 32) ∧
    (run (.sw 8 9 0) (start 0 [(8, 0x00400004), (9, 0x00000040)])).pc =
      (start 0 [(8, 0x00400004), (9, 0x00000040)]).readReg 8 + (0 : BitVec 16).signExtend 32 :=
  ⟨by decide, rfl, by simp only [Valid, InArray]; decide, by decide⟩
/-- ValidAddressNamesOneWord, MemWriteSetsOneWord: the last word, and another one. -/
theorem witness_last_word :
    State.reset.cfg.wf ∧ State.reset.mem.wf ∧ Valid State.reset 0x00403FFC ∧
    State.reset.index 0x00403FFC = 4095 ∧ (4094 : Nat) ≠ State.reset.index 0x00403FFC := by
  simp only [Valid, InArray]
  decide
/-- ByteViewIsBigEndian: every byte of the instruction `addiu $t1, $zero, 5` in memory. -/
theorem witness_bytes :
    [0, 1, 2, 3].map (fun j => (start 0x24090005 []).mem.readByte (0x00400000 + j)) = [0x24, 0x09, 0x00, 0x05] := by
  decide
/-- RegisterZeroFollowsItsSetting, every clause. -/
theorem witness_register_zero :
    (State.resetWith (configWith true .sign .rs)).cfg.r0Hardwired = true ∧
    State.reset.cfg.r0Hardwired = false ∧ (31 : Reg) ≠ 0 := by decide
/-- StepRunsTheDecodedInstruction, StopsHaveOneOrder, PlacedWordIsRun. -/
theorem witness_step_runs :
    Proceeds (start 0xAFA8FFFC []) ∧ Valid (start 0xAFA8FFFC []) (start 0xAFA8FFFC []).pc ∧
    decodeWord ((start 0xAFA8FFFC []).mem.readWord (start 0xAFA8FFFC []).pc.toNat) = .ok (.sw 29 8 0xFFFC) ∧
    step (start 0xAFA8FFFC []) = .next (after (start 0xAFA8FFFC [])) ∧ State.reset.mem.wf :=
  ⟨by simp only [Proceeds]; decide, by simp only [Valid, InArray]; decide, by decide, rfl, by decide⟩
/-- InvalidPcStopsWithFetchError: out of range at either end, and misaligned. -/
theorem witness_invalid_pcs :
    (∀ s ∈ [withPc State.reset 0x003FFFFC, withPc State.reset 0x00404000, withPc State.reset 0x00400002],
      Proceeds s ∧ ¬ Valid s s.pc) := by
  simp only [Proceeds, Valid, InArray]
  decide
/-- IllegalWordStopsWithDecodeError (with witness_illegal_words). -/
theorem witness_illegal_word_at_pc :
    Proceeds (start 0xFC000000 []) ∧ Valid (start 0xFC000000 []) (start 0xFC000000 []).pc ∧
    (start 0xFC000000 []).mem.readWord (start 0xFC000000 []).pc.toNat = 0xFC000000 := by
  simp only [Proceeds, Valid, InArray]
  decide
/-- ZeroWordHaltsCleanly: the reset state itself, whose memory is zero. -/
theorem witness_zero_word :
    Proceeds State.reset ∧ Valid State.reset State.reset.pc ∧
    State.reset.mem.readWord State.reset.pc.toNat = 0 := by
  simp only [Proceeds, Valid, InArray]
  decide
/-- HostStopEndsTheRun; SuccessIsTheZeroWord where the host stops. -/
theorem witness_host_stop :
    ({ State.reset with host := [.stop] } : State).status = .running ∧
    ({ State.reset with host := [.stop] } : State).host.head? = some .stop ∧
    step { State.reset with host := [.stop] } = .next (after { State.reset with host := [.stop] }) :=
  ⟨rfl, rfl, rfl⟩
/-- StoppedMachineTakesNoStep, RunEndsAtItsFirstStop. -/
theorem witness_stopped : (after State.reset).status ≠ .running ∧ (runFor 1 State.reset).status ≠ .running := by
  decide
/-- EveryStopIsPrecise, SuccessIsTheZeroWord at the zero word, StepTakesOneAnswer,
StepKeepsTheInvariant. -/
theorem witness_stop_step :
    step State.reset = .next (after State.reset) ∧ (after State.reset).status ≠ .running ∧
    (after State.reset).status.verdict = .success := ⟨rfl, by decide, by decide⟩
/-- SuccessIsTheZeroWord and StopsHaveOneOrder at an error. -/
theorem witness_failing_step :
    Proceeds (start 0x8FA80000 []) ∧ step (start 0x8FA80000 []) = .next (after (start 0x8FA80000 [])) ∧
    (after (start 0x8FA80000 [])).status.verdict = .failure ∧
    (after (start 0x8D280002 [(9, 0x00400008)])).status = .faulted (.memAlignError 0x0040000A 0x00400000) :=
  ⟨by simp only [Proceeds]; decide, rfl, by decide, by decide⟩
/-- OnlySwChangesMemory: the last byte of the word stored. -/
theorem witness_changed_byte :
    exec (.sw 29 8 0xFFFC) (start 0 [(8, 7)]) = .next (run (.sw 29 8 0xFFFC) (start 0 [(8, 7)])) ∧
    (run (.sw 29 8 0xFFFC) (start 0 [(8, 7)])).mem.readByte 0x00403FFF ≠
      (start 0 [(8, 7)]).mem.readByte 0x00403FFF := ⟨rfl, by decide⟩
/-- OnlyTheDestinationIsWritten, ReportNamesWhatWasWritten, NextPcIsSelectedByInstruction: an
instruction that completes and one that stops. -/
theorem witness_completion_and_stop :
    State.reset.status = .running ∧
    exec (.jal 0) State.reset = .next (run (.jal 0) State.reset) ∧ (run (.jal 0) State.reset).status = .running ∧
    Destination (.jal 0) ≠ some 30 ∧
    exec (.lw 29 8 0) State.reset = .next (run (.lw 29 8 0) State.reset) ∧
    (run (.lw 29 8 0) State.reset).status ≠ .running := ⟨rfl, rfl, rfl, by decide, rfl, by decide⟩
/-- OutputAndLaterAnswersHaveNoInfluence: two states that differ in both. -/
theorem witness_differs_in_output_and_host :
    ∃ s s' t : State, s ≠ s' ∧ s'.cfg = s.cfg ∧ s'.regs = s.regs ∧ s'.pc = s.pc ∧ s'.mem = s.mem ∧
      s'.status = s.status ∧ s'.host.head? = s.host.head? ∧ step s = .next t :=
  ⟨{ State.reset with host := [.proceed, .stop] },
    { State.reset with host := [.proceed], out := some (.report ⟨0x00400000, none, none⟩) }, _,
    by decide, rfl, rfl, rfl, rfl, rfl, rfl, rfl⟩
/-- StepKeepsTheInvariant, RunsKeepTheInvariant, ResetHasTheInvariant: a state with a listed byte, a
hard-wired register 0 and a step taken. -/
theorem witness_invariant :
    (after (startAt (configWith true .zero .rt) 0x24000005 [])).Inv ∧ Config.example.wf ∧
    core.run 1 (startAt (configWith true .zero .rt) 0x24000005 []) =
      .next (after (startAt (configWith true .zero .rt) 0x24000005 [])) :=
  ⟨⟨by decide, by decide, by decide, by decide, ⟨rfl, rfl⟩⟩, by decide, rfl⟩
/-- ResetValues, BootLoadsTheImage, ResetHasTheInvariant: an image that fills the text and one that is
a word too long. -/
theorem witness_boot :
    (∃ s, State.boot ⟨0x00400000, 2, 1, false, .sign, .rs⟩ [0x24090005, 0x00000040] = some s ∧
      s.memWord 1 = 0x00000040 ∧ s.memWord 2 = 0) ∧
    (⟨0x00400000, 2, 1, false, .sign, .rs⟩ : Config).wf ∧
    State.boot ⟨0x00400000, 2, 1, false, .sign, .rs⟩ [1, 2, 3] = none :=
  ⟨⟨_, rfl, by decide, by decide⟩, by decide, rfl⟩

end Sys2Proof.Tests
end

/-!
SUPPORT. The proofs about the shifts and the logical and upper immediates of
spec/41_alu.md: how a word of their rows decodes, what their operands are, and the effect they have
in common.
-/

namespace Sys2Proof.Proofs

open Sys2Proof.Machine Sys2Proof.Claims

/-! ### Decoding the words of a row (R65, R66) -/

/-- R68. -/
theorem decodeWord_zero : decodeWord 0 = .ok .halt := rfl

theorem decodeWord_of_ne_zero {w : Word} (hw : w ≠ 0) : decodeWord w = decodeNonzero w := if_neg hw

theorem decodeNonzero_of_opcode_zero {w : Word} (ho : opcodeField w = 0) :
    decodeNonzero w = decodeRForm w := by
  simp [decodeNonzero, ho]

/-- An R-form row decodes with its fields where opcode 0 with the row's funct does. -/
theorem decodesRForm_of_funct {p : Word} {funct : BitVec 6} {mk : Reg → Reg → Reg → BitVec 5 → Instr}
    (hp : opcodeField p = 0) (hf : functField p = funct)
    (hdec : ∀ w, functField w = funct →
      decodeRForm w = .ok (mk (rsField w) (rtField w) (rdField w) (shamtField w))) :
    DecodesRForm p mk := by
  intro w hw hne
  obtain ⟨hop, hfun⟩ := fields_of_rMask hw
  rw [decodeWord_of_ne_zero hne, decodeNonzero_of_opcode_zero (hop.trans hp)]
  exact hdec w (hfun.trans hf)

/-- An I-form row decodes with its fields where the row's opcode, which is not 0, does. -/
theorem decodesIForm_of_opcode {p : Word} {opcode : BitVec 6} {mk : Reg → Reg → BitVec 16 → Instr}
    (hp : opcodeField p = opcode) (h0 : opcode ≠ 0)
    (hdec : ∀ w, opcodeField w = opcode →
      decodeNonzero w = .ok (mk (rsField w) (rtField w) (immField w))) :
    DecodesIForm p mk := by
  intro w hw
  have hop : opcodeField w = opcode := (opcode_of_opMask hw).trans hp
  have hne : w ≠ 0 := by
    rintro rfl
    exact h0 hop.symm
  rw [decodeWord_of_ne_zero hne]
  exact hdec w hop

theorem decodesRForm_sll : DecodesRForm 0x00000000 .sll :=
  decodesRForm_of_funct (funct := 0x00) rfl rfl fun w h => by simp [decodeRForm, h]

theorem decodesRForm_srl : DecodesRForm 0x00000002 .srl :=
  decodesRForm_of_funct (funct := 0x02) rfl rfl fun w h => by simp [decodeRForm, h]

theorem decodesIForm_andi : DecodesIForm 0x30000000 .andi :=
  decodesIForm_of_opcode (opcode := 0x0c) rfl (by decide) fun w h => by simp [decodeNonzero, h]

theorem decodesIForm_ori : DecodesIForm 0x34000000 .ori :=
  decodesIForm_of_opcode (opcode := 0x0d) rfl (by decide) fun w h => by simp [decodeNonzero, h]

theorem decodesIForm_lui : DecodesIForm 0x3C000000 .lui :=
  decodesIForm_of_opcode (opcode := 0x0f) rfl (by decide) fun w h => by simp [decodeNonzero, h]

/-! ### Operands the parameters select (D3, D4) -/

theorem readReg_shiftReg (s : State) (rs rt : Reg) :
    s.readReg (shiftReg s.cfg rs rt) = ShiftSource s rs rt := by
  cases h : s.cfg.shiftSrc <;> simp [shiftReg, ShiftSource, h]

theorem logicalImm_eq_limm (s : State) (imm : BitVec 16) : logicalImm s.cfg imm = Limm s imm := by
  cases h : s.cfg.logicalImmExt <;> simp [logicalImm, Limm, h]

/-! ### The effect of a register write (R89, R90, R92) -/

theorem discards_iff (c : Config) (r : Reg) :
    Config.discards c r = true ↔ c.r0Hardwired = true ∧ r = 0 := by
  simp [Config.discards]

/-- A commit of one register and no store writes that register and nothing else. -/
theorem writesRegister_commit (s : State) (r : Reg) (v npc : Word) :
    WritesRegister s (s.commit none (some (r, v)) npc) r v npc where
  written := by simp [readReg_commit_some, discards_iff]
  others q hq := by simp [readReg_commit_some, hq]
  memory _ := rfl
  pc := rfl
  report := rfl
  steady := ⟨rfl, rfl, rfl⟩

/-- The end every ALU instruction shares. -/
theorem writesRegister_writeResult (s : State) (r : Reg) (v : Word) :
    WritesRegister s (s.writeResult r v) r v (s.pc + 4) :=
  writesRegister_commit s r v (s.pc + 4)

/-! ### The shifts (spec/41_alu.md section 2) -/

theorem exec_sll (rs rt rd : Reg) (shamt : BitVec 5) (s : State) :
    exec (.sll rs rt rd shamt) s = .next (s.writeResult rd (ShiftSource s rs rt <<< shamt.toNat)) := by
  rw [← readReg_shiftReg]
  rfl

theorem exec_srl (rs rt rd : Reg) (shamt : BitVec 5) (s : State) :
    exec (.srl rs rt rd shamt) s = .next (s.writeResult rd (ShiftSource s rs rt >>> shamt.toNat)) := by
  rw [← readReg_shiftReg]
  rfl

/-- Settles O10: the words of the row decode by opcode and funct, the zero word apart, and the result
is one register write. -/
theorem sllShiftsLeft : Obligations.SllShiftsLeft :=
  ⟨decodesRForm_sll, decodeWord_zero, fun rs rt rd shamt s =>
    ⟨_, exec_sll rs rt rd shamt s, writesRegister_writeResult s rd _⟩⟩

/-- Settles O11: the words of the row decode by opcode and funct, and the result is one register
write. -/
theorem srlShiftsRightLogically : Obligations.SrlShiftsRightLogically :=
  ⟨decodesRForm_srl, fun rs rt rd shamt s =>
    ⟨_, exec_srl rs rt rd shamt s, writesRegister_writeResult s rd _⟩⟩

/-! ### The immediates (spec/41_alu.md section 3) -/

theorem exec_andi (rs rt : Reg) (imm : BitVec 16) (s : State) :
    exec (.andi rs rt imm) s = .next (s.writeResult rt (s.readReg rs &&& Limm s imm)) := by
  rw [← logicalImm_eq_limm]
  rfl

theorem exec_ori (rs rt : Reg) (imm : BitVec 16) (s : State) :
    exec (.ori rs rt imm) s = .next (s.writeResult rt (s.readReg rs ||| Limm s imm)) := by
  rw [← logicalImm_eq_limm]
  rfl

theorem exec_lui (rs rt : Reg) (imm : BitVec 16) (s : State) :
    exec (.lui rs rt imm) s = .next (s.writeResult rt (imm ++ 0x0000#16)) := rfl

/-- Settles O16: the words of the row decode by opcode, and the result is one register write. -/
theorem andiMasksWithImmediate : Obligations.AndiMasksWithImmediate :=
  ⟨decodesIForm_andi, fun rs rt imm s =>
    ⟨_, exec_andi rs rt imm s, writesRegister_writeResult s rt _⟩⟩

/-- Settles O17: the words of the row decode by opcode, and the result is one register write. -/
theorem oriSetsImmediateBits : Obligations.OriSetsImmediateBits :=
  ⟨decodesIForm_ori, fun rs rt imm s =>
    ⟨_, exec_ori rs rt imm s, writesRegister_writeResult s rt _⟩⟩

/-- Settles O18: the words of the row decode by opcode, and the result is one register write. -/
theorem luiLoadsUpperHalf : Obligations.LuiLoadsUpperHalf :=
  ⟨decodesIForm_lui, fun rs rt imm s =>
    ⟨_, exec_lui rs rt imm s, writesRegister_writeResult s rt _⟩⟩

end Sys2Proof.Proofs

/-!
SUPPORT. The proof about the illegal words of spec/30_encoding.md: the rows of R66 as tests of the
opcode and funct fields, and what the decoder answers where those fields are in no row.
-/

namespace Sys2Proof.Proofs

open Sys2Proof.Machine Sys2Proof.Claims

/-! ### The rows of the table by opcode and funct (R66, R67, R69) -/

/-- The eight functs of R67. -/
def listedFuncts : List (BitVec 6) := [0x00, 0x02, 0x08, 0x21, 0x23, 0x24, 0x25, 0x2a]

/-- The opcodes of R69 other than 0: those of the I and J forms. -/
def listedOpcodes : List (BitVec 6) := [0x02, 0x03, 0x04, 0x05, 0x09, 0x0c, 0x0d, 0x0f, 0x23, 0x2b]

/-- The row of an R form with its funct. -/
def rFormRow (funct : BitVec 6) : OpcodeRow := ⟨funct.zeroExtend 32, 0xFC00003F⟩

/-- The row of an I or J form with its opcode. -/
def opcodeOnlyRow (opcode : BitVec 6) : OpcodeRow := ⟨opcode ++ 0#26, 0xFC000000⟩

theorem instructionRows_eq :
    InstructionRows = listedFuncts.map rFormRow ++ listedOpcodes.map opcodeOnlyRow := by decide

theorem matches_rFormRow_iff (w : Word) (funct : BitVec 6) :
    w &&& (rFormRow funct).mask = (rFormRow funct).pattern ↔
      opcodeField w = 0#6 ∧ functField w = funct := by
  constructor
  · intro h
    obtain ⟨hop, hfun⟩ := fields_of_rMask h
    obtain ⟨hop', hfun'⟩ := fields_of_rMask (rFormWord_and_mask 0 0 0 0 funct)
    exact ⟨(hop.trans hop'.symm).trans (opcodeField_rFormWord 0 0 0 0 funct),
      (hfun.trans hfun'.symm).trans (functField_rFormWord 0 0 0 0 funct)⟩
  · rintro ⟨hop, rfl⟩
    have h := rFormWord_and_mask (rsField w) (rtField w) (rdField w) (shamtField w) (functField w)
    rwa [rFormWord_fields w hop] at h

theorem matches_opcodeOnlyRow_iff (w : Word) (opcode : BitVec 6) :
    w &&& (opcodeOnlyRow opcode).mask = (opcodeOnlyRow opcode).pattern ↔ opcodeField w = opcode := by
  constructor
  · intro h
    exact (opcode_of_opMask h).trans (opcodeField_jFormWord opcode 0)
  · rintro rfl
    have h := jFormWord_and_mask (opcodeField w) (targetField w)
    rwa [jFormWord_fields] at h

theorem matches_some_row_iff (w : Word) :
    (∃ row ∈ InstructionRows, w &&& row.mask = row.pattern) ↔
      (opcodeField w = 0#6 ∧ functField w ∈ listedFuncts) ∨ opcodeField w ∈ listedOpcodes := by
  simp [instructionRows_eq, or_and_right, exists_or, matches_rFormRow_iff,
    matches_opcodeOnlyRow_iff, and_comm (a := opcodeField w = 0#6)]

/-! ### Illegal words (R69) -/

/-- The fields of an illegal word: an opcode outside the eleven, or opcode 0 and a funct outside the
eight. -/
def HasUnlistedFields (w : Word) : Prop :=
  opcodeField w ∉ 0#6 :: listedOpcodes ∨ opcodeField w = 0#6 ∧ functField w ∉ listedFuncts

theorem matches_no_row_iff (w : Word) :
    (∀ row ∈ InstructionRows, w &&& row.mask ≠ row.pattern) ↔ HasUnlistedFields w := by
  have hnone : (∀ row ∈ InstructionRows, w &&& row.mask ≠ row.pattern) ↔
      ¬ ∃ row ∈ InstructionRows, w &&& row.mask = row.pattern := by simp
  have h0 : 0#6 ∉ listedOpcodes := by decide
  rw [hnone, matches_some_row_iff, HasUnlistedFields]
  by_cases hop : opcodeField w = 0#6 <;> simp [hop, h0]

theorem toNat_ne_of_not_mem {field : BitVec 6} {listed : List (BitVec 6)} (h : field ∉ listed)
    {n : Nat} (hn : BitVec.ofNat 6 n ∈ listed) : field.toNat ≠ n := by
  rintro rfl
  exact h (by simpa using hn)

theorem decodeRForm_of_not_mem {w : Word} (h : functField w ∉ listedFuncts) :
    decodeRForm w = .error (.unknownFunct (functField w)) := by
  unfold decodeRForm
  split
  case h_9 => rfl
  all_goals next hf => exact absurd hf (toNat_ne_of_not_mem h (by decide))

theorem decodeNonzero_of_not_mem {w : Word} (h : opcodeField w ∉ 0#6 :: listedOpcodes) :
    decodeNonzero w = .error (.unknownOpcode (opcodeField w)) := by
  unfold decodeNonzero
  split
  case h_12 => rfl
  all_goals next ho => exact absurd ho (toNat_ne_of_not_mem h (by decide))

theorem decodeWord_of_hasUnlistedFields {w : Word} (hw : w ≠ 0) (h : HasUnlistedFields w) :
    ∃ why, decodeWord w = .error why := by
  rw [decodeWord_of_ne_zero hw]
  rcases h with hop | ⟨hop, hfun⟩
  · exact ⟨_, decodeNonzero_of_not_mem hop⟩
  · exact ⟨_, (decodeNonzero_of_opcode_zero hop).trans (decodeRForm_of_not_mem hfun)⟩

/-- R140: a fetched word that does not decode is a `DecodeError` with the word and the PC. -/
theorem fetchInstr_of_decode_error {s : State} {w : Word} {why : DecodeReject}
    (hf : s.fetch = .ok w) (hd : decodeWord w = .error why) :
    s.fetchInstr = .error (.decodeError w s.pc) := by
  simp [State.fetchInstr, hf, hd]

/-- Settles O5: each row tests the opcode, and an R form's row the funct too, so a word in no row is
one whose fields the decoder does not list. -/
theorem otherWordsAreIllegal : Obligations.OtherWordsAreIllegal := by
  intro w hw
  refine ⟨matches_no_row_iff w, fun hrows => ?_⟩
  obtain ⟨why, hd⟩ := decodeWord_of_hasUnlistedFields hw ((matches_no_row_iff w).mp hrows)
  exact ⟨fun i => by simp [hd], fun s hf => fetchInstr_of_decode_error hf hd⟩

end Sys2Proof.Proofs

/-!
SUPPORT. The proofs about the next-PC multiplexer and the writeback arbiter of spec/40_datapath.md:
an instruction that does not stop commits to the arbiter's register and to the multiplexer's PC.
-/

namespace Sys2Proof.Proofs

open Sys2Proof.Machine Sys2Proof.Claims

/-! ### The next-PC multiplexer (R85) -/

/-- What the multiplexer puts out for an instruction, on the snapshot decode reads and the value the
executor computes. -/
def selectedPc (s : State) (i : Instr) : Word :=
  nextPc i (s.snapshot i) s.pc (executor s.cfg i (s.snapshot i) s.pc)

theorem selectedPc_beq (s : State) (rs rt : Reg) (imm : BitVec 16) :
    selectedPc s (.beq rs rt imm) =
      if s.readReg rs = s.readReg rt then branchTarget s.pc imm else seqPc s.pc := by
  simp [selectedPc, nextPc, State.snapshot]

theorem selectedPc_bne (s : State) (rs rt : Reg) (imm : BitVec 16) :
    selectedPc s (.bne rs rt imm) =
      if s.readReg rs ≠ s.readReg rt then branchTarget s.pc imm else seqPc s.pc := by
  simp [selectedPc, nextPc, State.snapshot]

theorem exec_beq (rs rt : Reg) (imm : BitVec 16) (s : State) :
    exec (.beq rs rt imm) s = .next (s.commit none none (selectedPc s (.beq rs rt imm))) := by
  simp [exec, execBeq, sameWord, selectedPc_beq]

theorem exec_bne (rs rt : Reg) (imm : BitVec 16) (s : State) :
    exec (.bne rs rt imm) s = .next (s.commit none none (selectedPc s (.bne rs rt imm))) := by
  simp [exec, execBne, sameWord, selectedPc_bne]

/-! ### How an instruction ends (R88, R90, R145) -/

theorem raise_status_ne_running (s : State) (st : Stop) : (s.raise st).status ≠ .running := by
  cases st <;> simp [Stop.status]

/-- A commit leaves every register it does not name as it was. -/
theorem readReg_commit_of_ne (s : State) (store : Option (Word × Word)) {write : Option (Reg × Word)}
    (npc : Word) {q : Reg} (hq : write.map Prod.fst ≠ some q) :
    (s.commit store write npc).readReg q = s.readReg q := by
  cases write with
  | none => exact readReg_commit_none s store npc q
  | some rv =>
    have hne : q ≠ rv.1 := fun h => hq (congrArg some h.symm)
    rw [readReg_commit_some, if_neg hne]

/-- Every instruction stops, or commits a write of the arbiter's register, if it selects one, and the
multiplexer's PC. -/
theorem exec_stops_or_commits (i : Instr) (s : State) :
    (∃ st, exec i s = .next (s.raise st)) ∨
    (∃ store write, write.map Prod.fst = Destination i ∧
      exec i s = .next (s.commit store write (selectedPc s i))) := by
  cases i with
  | halt => exact .inl ⟨.halt s.pc, rfl⟩
  | lw rs rt imm =>
    cases h : s.dataCheck (s.effAddr rs imm) with
    | some e => exact .inl ⟨.error e, by simp only [exec, execLw, h]⟩
    | none => exact .inr ⟨none, some (rt, _), rfl, by simp only [exec, execLw, h]; rfl⟩
  | sw rs rt imm =>
    cases h : s.dataCheck (s.effAddr rs imm) with
    | some e => exact .inl ⟨.error e, by simp only [exec, execSw, h]⟩
    | none => exact .inr ⟨some _, none, rfl, by simp only [exec, execSw, h]; rfl⟩
  | beq rs rt imm => exact .inr ⟨none, none, rfl, exec_beq rs rt imm s⟩
  | bne rs rt imm => exact .inr ⟨none, none, rfl, exec_bne rs rt imm s⟩
  | jr | j => exact .inr ⟨none, none, rfl, rfl⟩
  | sll | srl | addu | subu | and | or | slt | jal | addiu | andi | ori | lui =>
    exact .inr ⟨none, some _, rfl, rfl⟩

/-- Settles O49: a stop writes no register, and a commit writes and reports the arbiter's. -/
theorem onlyTheDestinationIsWritten : Obligations.OnlyTheDestinationIsWritten := by
  intro i s t _ h
  obtain ⟨st, he⟩ | ⟨store, write, hdest, he⟩ := exec_stops_or_commits i s <;>
    obtain rfl := Host.Outcome.next.inj (he.symm.trans h)
  · exact ⟨fun q _ => raise_readReg s st q, fun hr => absurd hr (raise_status_ne_running s st)⟩
  · rw [← hdest]
    exact ⟨fun q hq => readReg_commit_of_ne s store _ hq, fun _ => ⟨_, _, commit_out ..⟩⟩

/-- Settles O51: an instruction that completes commits the multiplexer's PC, which is R85's in every
case. -/
theorem nextPcIsSelectedByInstruction : Obligations.NextPcIsSelectedByInstruction := by
  intro i s t h hr
  obtain ⟨st, he⟩ | ⟨store, write, -, he⟩ := exec_stops_or_commits i s <;>
    obtain rfl := Host.Outcome.next.inj (he.symm.trans h)
  · exact absurd hr (raise_status_ne_running s st)
  · rw [commit_pc]
    cases i with
    | beq rs rt imm => exact selectedPc_beq s rs rt imm
    | bne rs rt imm => exact selectedPc_bne s rs rt imm
    | _ => rfl

end Sys2Proof.Proofs

/-!
SUPPORT. The proofs about the sums, the register-to-register logic and the signed comparison of
spec/41_alu.md: how a word of their rows decodes, the result each computes, and its one register
write.
-/

namespace Sys2Proof.Proofs

open Sys2Proof.Machine Sys2Proof.Claims

/-! ### Decoding the words of a row (R66, R67) -/

theorem decodesRForm_addu : DecodesRForm 0x00000021 .addu :=
  decodesRForm_of_funct (funct := 0x21) rfl rfl fun w h => by simp [decodeRForm, h]

theorem decodesRForm_subu : DecodesRForm 0x00000023 .subu :=
  decodesRForm_of_funct (funct := 0x23) rfl rfl fun w h => by simp [decodeRForm, h]

theorem decodesRForm_and : DecodesRForm 0x00000024 .and :=
  decodesRForm_of_funct (funct := 0x24) rfl rfl fun w h => by simp [decodeRForm, h]

theorem decodesRForm_or : DecodesRForm 0x00000025 .or :=
  decodesRForm_of_funct (funct := 0x25) rfl rfl fun w h => by simp [decodeRForm, h]

theorem decodesRForm_slt : DecodesRForm 0x0000002A .slt :=
  decodesRForm_of_funct (funct := 0x2a) rfl rfl fun w h => by simp [decodeRForm, h]

theorem decodesIForm_addiu : DecodesIForm 0x24000000 .addiu :=
  decodesIForm_of_opcode (opcode := 0x09) rfl (by decide) fun w h => by simp [decodeNonzero, h]

/-! ### The result and its write (R88, R89, R90) -/

/-- The model compares the operands as integers; the library's `BitVec.slt` is the same order. -/
theorem setLess_eq_slt (vs vt : Word) : setLess vs vt = if vs.slt vt then 1 else 0 := by
  simp only [setLess, BitVec.slt_iff_toInt_lt]

/-- An instruction that ends as every ALU instruction does completes with one register write. -/
theorem completes_of_exec_writeResult {i : Instr} {s : State} {r : Reg} {v : Word}
    (h : exec i s = .next (s.writeResult r v)) :
    ∃ t, exec i s = .next t ∧ WritesRegister s t r v (s.pc + 4) :=
  ⟨_, h, writesRegister_writeResult s r v⟩

theorem exec_addu (rs rt rd : Reg) (shamt : BitVec 5) (s : State) :
    exec (.addu rs rt rd shamt) s = .next (s.writeResult rd (s.readReg rs + s.readReg rt)) := rfl

theorem exec_subu (rs rt rd : Reg) (shamt : BitVec 5) (s : State) :
    exec (.subu rs rt rd shamt) s = .next (s.writeResult rd (s.readReg rs - s.readReg rt)) := rfl

theorem exec_and (rs rt rd : Reg) (shamt : BitVec 5) (s : State) :
    exec (.and rs rt rd shamt) s = .next (s.writeResult rd (s.readReg rs &&& s.readReg rt)) := rfl

theorem exec_or (rs rt rd : Reg) (shamt : BitVec 5) (s : State) :
    exec (.or rs rt rd shamt) s = .next (s.writeResult rd (s.readReg rs ||| s.readReg rt)) := rfl

theorem exec_slt (rs rt rd : Reg) (shamt : BitVec 5) (s : State) :
    exec (.slt rs rt rd shamt) s =
      .next (s.writeResult rd (if (s.readReg rs).slt (s.readReg rt) then 1 else 0)) := by
  rw [← setLess_eq_slt]
  rfl

theorem exec_addiu (rs rt : Reg) (imm : BitVec 16) (s : State) :
    exec (.addiu rs rt imm) s = .next (s.writeResult rt (s.readReg rs + imm.signExtend 32)) := rfl

/-! ### The register forms (R100, R101, R104 to R106) -/

/-- Settles O8: the words of the row decode by opcode and funct, and the sum is one register write. -/
theorem adduAddsAndWraps : Obligations.AdduAddsAndWraps :=
  ⟨decodesRForm_addu, fun rs rt rd shamt s =>
    completes_of_exec_writeResult (exec_addu rs rt rd shamt s)⟩

/-- Settles O9: the words of the row decode by opcode and funct, and the difference is one register
write. -/
theorem subuSubtractsAndWraps : Obligations.SubuSubtractsAndWraps :=
  ⟨decodesRForm_subu, fun rs rt rd shamt s =>
    completes_of_exec_writeResult (exec_subu rs rt rd shamt s)⟩

/-- Settles O12: the words of the row decode by opcode and funct, and the AND is one register write. -/
theorem andIsBitwise : Obligations.AndIsBitwise :=
  ⟨decodesRForm_and, fun rs rt rd shamt s =>
    completes_of_exec_writeResult (exec_and rs rt rd shamt s)⟩

/-- Settles O13: the words of the row decode by opcode and funct, and the OR is one register write. -/
theorem orIsBitwise : Obligations.OrIsBitwise :=
  ⟨decodesRForm_or, fun rs rt rd shamt s =>
    completes_of_exec_writeResult (exec_or rs rt rd shamt s)⟩

/-- Settles O14: the words of the row decode by opcode and funct, and the model's comparison of
integers is the signed order of words. -/
theorem sltComparesSigned : Obligations.SltComparesSigned :=
  ⟨decodesRForm_slt, fun rs rt rd shamt s =>
    completes_of_exec_writeResult (exec_slt rs rt rd shamt s)⟩

/-! ### The immediate form (R107) -/

/-- Settles O15: the words of the row decode by opcode, and the sum with the sign-extended immediate
is one register write. -/
theorem addiuAddsSignExtended : Obligations.AddiuAddsSignExtended :=
  ⟨decodesIForm_addiu, fun rs rt imm s =>
    completes_of_exec_writeResult (exec_addiu rs rt imm s)⟩

end Sys2Proof.Proofs

/-!
SUPPORT. The proofs about the round trip between words and instructions of spec/30_encoding.md: what
the decoder answers for the encoder's words, that a decoded instruction's word is the word decoded,
and that a word decodes exactly where it matches a row of the table.
-/

namespace Sys2Proof.Proofs

open Sys2Proof.Machine Sys2Proof.Claims

/-! ### Decoding an encoded word (R60 to R68) -/

/-- R68: of the `sll` words only the one with every field zero is the sentinel's. -/
theorem sllWord_eq_zero {rs rt rd : Reg} {shamt : BitVec 5} (h : rFormWord rs rt rd shamt 0 = 0) :
    Instr.sll rs rt rd shamt = .sll 0 0 0 0 := by
  have hrs : rs = 0 := (rsField_rFormWord rs rt rd shamt 0).symm.trans (congrArg rsField h)
  have hrt : rt = 0 := (rtField_rFormWord rs rt rd shamt 0).symm.trans (congrArg rtField h)
  have hrd : rd = 0 := (rdField_rFormWord rs rt rd shamt 0).symm.trans (congrArg rdField h)
  have hsh : shamt = 0 := (shamtField_rFormWord rs rt rd shamt 0).symm.trans (congrArg shamtField h)
  rw [hrs, hrt, hrd, hsh]

theorem encode_ne_zero {i : Instr} (hwf : i.WellFormed) (hi : i ≠ .halt) : encode i ≠ 0 := by
  cases i with
  | halt => exact absurd rfl hi
  | sll rs rt rd shamt =>
    intro h
    rw [sllWord_eq_zero h] at hwf
    exact absurd hwf (by decide)
  | srl | jr | addu | subu | and | or | slt => exact rFormWord_ne_zero _ _ _ _ (by decide)
  | j | jal => exact jFormWord_ne_zero _ (by decide)
  | beq | bne | addiu | andi | ori | lui | lw | sw => exact iFormWord_ne_zero _ _ _ (by decide)

/-- The opcode, and for the R form the funct, of an encoded word select the instruction's own arm of
the decoder, which reads back the fields. -/
theorem decodeNonzero_encode {i : Instr} (hi : i ≠ .halt) : decodeNonzero (encode i) = .ok i := by
  cases i with
  | halt => exact absurd rfl hi
  | sll | srl | jr | addu | subu | and | or | slt => simp [encode, decodeNonzero, decodeRForm]
  | j | jal | beq | bne | addiu | andi | ori | lui | lw | sw => simp [encode, decodeNonzero]

theorem decodeWord_encode {i : Instr} (hwf : i.WellFormed) : decodeWord (encode i) = .ok i := by
  by_cases hi : i = .halt
  · rw [hi]
    rfl
  · rw [decodeWord_of_ne_zero (encode_ne_zero hwf hi), decodeNonzero_encode hi]

/-- A stream that begins with a word's bytes decodes as the word, and the bytes after it are left. -/
theorem decodeBytes_wordBytes_append {w : Word} {i : Instr} (h : decodeWord w = .ok i)
    (rest : List Byte) : decodeBytes (wordBytes w ++ rest) = .ok (i, rest) := by
  simp only [wordBytes, List.cons_append, List.nil_append, decodeBytes, wordOfBytes_wordByte, h]
  rfl

theorem ofNat_toNat_mod (w : Word) : BitVec.ofNat 32 (w.toNat % 2 ^ 32) = w := by
  rw [Nat.mod_eq_of_lt w.isLt, BitVec.ofNat_toNat, BitVec.setWidth_eq]

theorem decodeTableWord_toNat {w : Word} {i : Instr} (h : decodeWord w = .ok i) :
    decodeTableWord 32 w.toNat = some i := by
  have hbytes := decodeBytes_wordBytes_append h []
  rw [List.append_nil] at hbytes
  simp only [decodeTableWord, ofNat_toNat_mod, hbytes]

/-- Settles O2: an encoded word selects its instruction's arm of the decoder, and the byte stream and
the table's numbering lay out that same word. -/
theorem decodeOfEncode : Obligations.DecodeOfEncode := fun _ hwf =>
  have hdec := decodeWord_encode hwf
  ⟨hdec, decodeBytes_wordBytes_append hdec, decodeTableWord_toNat hdec⟩

/-! ### Encoding a decoded instruction -/

theorem ofNat_eq_of_toNat_eq {field : BitVec 6} {n : Nat} (h : field.toNat = n) :
    BitVec.ofNat 6 n = field := by
  rw [← h, BitVec.ofNat_toNat, BitVec.setWidth_eq]

theorem rFormWord_of_funct {w : Word} {n : Nat} (hop : opcodeField w = 0)
    (hn : (functField w).toNat = n) :
    rFormWord (rsField w) (rtField w) (rdField w) (shamtField w) (BitVec.ofNat 6 n) = w := by
  rw [ofNat_eq_of_toNat_eq hn, rFormWord_fields w hop]

theorem iFormWord_of_opcode {w : Word} {n : Nat} (hn : (opcodeField w).toNat = n) :
    iFormWord (BitVec.ofNat 6 n) (rsField w) (rtField w) (immField w) = w := by
  rw [ofNat_eq_of_toNat_eq hn, iFormWord_fields]

theorem jFormWord_of_opcode {w : Word} {n : Nat} (hn : (opcodeField w).toNat = n) :
    jFormWord (BitVec.ofNat 6 n) (targetField w) = w := by
  rw [ofNat_eq_of_toNat_eq hn, jFormWord_fields]

theorem encode_of_decodeRForm {w : Word} {i : Instr} (hop : opcodeField w = 0)
    (h : decodeRForm w = .ok i) : encode i = w := by
  unfold decodeRForm at h
  split at h
  case h_9 => cases h
  all_goals
    next hn =>
      cases h
      exact rFormWord_of_funct hop hn

theorem encode_of_decodeNonzero {w : Word} {i : Instr} (h : decodeNonzero w = .ok i) :
    encode i = w := by
  unfold decodeNonzero at h
  split at h
  case h_1 hn => exact encode_of_decodeRForm (BitVec.eq_of_toNat_eq hn) h
  case h_2 hn | h_3 hn =>
    cases h
    exact jFormWord_of_opcode hn
  case h_12 => cases h
  all_goals
    next hn =>
      cases h
      exact iFormWord_of_opcode hn

/-- No bit of a word is dropped by the decoder. -/
theorem encode_of_decodeWord {w : Word} {i : Instr} (h : decodeWord w = .ok i) : encode i = w := by
  by_cases hw : w = 0
  · subst hw
    cases h
    rfl
  · rw [decodeWord_of_ne_zero hw] at h
    exact encode_of_decodeNonzero h

/-- R68: the sentinel is decoded from the zero word alone. -/
theorem decodeWord_eq_halt_iff (w : Word) : decodeWord w = .ok .halt ↔ w = 0 :=
  ⟨fun h => (encode_of_decodeWord h).symm, fun h => h ▸ decodeWord_zero⟩

/-- R68: the ill-formed `sll` has the zero word, which decodes to the sentinel. -/
theorem wellFormed_of_decodeWord {w : Word} {i : Instr} (h : decodeWord w = .ok i) :
    i.WellFormed := by
  have hne : i ≠ .sll 0 0 0 0 := by
    rintro rfl
    obtain rfl : 0 = w := encode_of_decodeWord h
    cases h
  simpa using hne

/-- Settles O3: each arm of the decoder keeps every field, so the word is put together again. -/
theorem encodeOfDecode : Obligations.EncodeOfDecode := fun _ _ h =>
  ⟨wellFormed_of_decodeWord h, encode_of_decodeWord h⟩

/-! ### The rows of the table (R66) -/

theorem decodesRForm_jr : DecodesRForm 0x00000008 .jr :=
  decodesRForm_of_funct (funct := 0x08) rfl rfl fun w h => by simp [decodeRForm, h]

/-- A J-form row decodes with its target where the row's opcode, which is not 0, does. -/
theorem decodesJForm_of_opcode {p : Word} {opcode : BitVec 6} {mk : BitVec 26 → Instr}
    (hp : opcodeField p = opcode) (h0 : opcode ≠ 0)
    (hdec : ∀ w, opcodeField w = opcode → decodeNonzero w = .ok (mk (targetField w))) :
    DecodesJForm p mk := by
  intro w hw
  have hop := (opcode_of_opMask hw).trans hp
  have hne : w ≠ 0 := fun h => h0 (hop.symm.trans (congrArg opcodeField h))
  exact (decodeWord_of_ne_zero hne).trans (hdec w hop)

theorem decodesJForm_j : DecodesJForm 0x08000000 .j :=
  decodesJForm_of_opcode (opcode := 0x02) rfl (by decide) fun w h => by simp [decodeNonzero, h]

theorem decodesJForm_jal : DecodesJForm 0x0C000000 .jal :=
  decodesJForm_of_opcode (opcode := 0x03) rfl (by decide) fun w h => by simp [decodeNonzero, h]

theorem decodesIForm_beq : DecodesIForm 0x10000000 .beq :=
  decodesIForm_of_opcode (opcode := 0x04) rfl (by decide) fun w h => by simp [decodeNonzero, h]

theorem decodesIForm_bne : DecodesIForm 0x14000000 .bne :=
  decodesIForm_of_opcode (opcode := 0x05) rfl (by decide) fun w h => by simp [decodeNonzero, h]

theorem decodesIForm_lw : DecodesIForm 0x8C000000 .lw :=
  decodesIForm_of_opcode (opcode := 0x23) rfl (by decide) fun w h => by simp [decodeNonzero, h]

theorem decodesIForm_sw : DecodesIForm 0xAC000000 .sw :=
  decodesIForm_of_opcode (opcode := 0x2b) rfl (by decide) fun w h => by simp [decodeNonzero, h]

theorem encode_matchesTable (i : Instr) : Laws.MatchesTable.Statement i := by
  cases i with
  | halt => exact Laws.MatchesTable.halt
  | j | jal => exact jFormWord_and_mask ..
  | sll | srl | jr | addu | subu | and | or | slt => exact rFormWord_and_mask ..
  | beq | bne | addiu | andi | ori | lui | lw | sw => exact iFormWord_and_mask ..

theorem opcodeRow_mem_instructionRows {i : Instr} (hi : i ≠ .halt) :
    opcodeRow i ∈ InstructionRows := by
  cases i with
  | halt => exact absurd rfl hi
  | _ => simp [InstructionRows, opcodeTable, opcodeRow]

/-- A non-zero word of a row decodes to an instruction of that row. -/
theorem decodes_of_matches_row {w : Word} (hw : w ≠ 0) {row : OpcodeRow}
    (hrow : row ∈ InstructionRows) (hm : w &&& row.mask = row.pattern) :
    ∃ i, decodeWord w = .ok i ∧ opcodeRow i = row := by
  simp only [InstructionRows, opcodeTable, List.take_succ_cons, List.take_zero, List.mem_cons,
    List.not_mem_nil, or_false] at hrow
  obtain rfl | rfl | rfl | rfl | rfl | rfl | rfl | rfl | rfl | rfl | rfl | rfl | rfl | rfl | rfl |
    rfl | rfl | rfl := hrow
  · exact ⟨_, decodesRForm_sll w hm hw, rfl⟩
  · exact ⟨_, decodesRForm_srl w hm hw, rfl⟩
  · exact ⟨_, decodesRForm_jr w hm hw, rfl⟩
  · exact ⟨_, decodesRForm_addu w hm hw, rfl⟩
  · exact ⟨_, decodesRForm_subu w hm hw, rfl⟩
  · exact ⟨_, decodesRForm_and w hm hw, rfl⟩
  · exact ⟨_, decodesRForm_or w hm hw, rfl⟩
  · exact ⟨_, decodesRForm_slt w hm hw, rfl⟩
  · exact ⟨_, decodesJForm_j w hm, rfl⟩
  · exact ⟨_, decodesJForm_jal w hm, rfl⟩
  · exact ⟨_, decodesIForm_beq w hm, rfl⟩
  · exact ⟨_, decodesIForm_bne w hm, rfl⟩
  · exact ⟨_, decodesIForm_addiu w hm, rfl⟩
  · exact ⟨_, decodesIForm_andi w hm, rfl⟩
  · exact ⟨_, decodesIForm_ori w hm, rfl⟩
  · exact ⟨_, decodesIForm_lui w hm, rfl⟩
  · exact ⟨_, decodesIForm_lw w hm, rfl⟩
  · exact ⟨_, decodesIForm_sw w hm, rfl⟩

/-- Settles O4: a decoded word is its instruction's encoding, which matches that instruction's row;
and every row's words decode to it. -/
theorem wordsMatchTheirTableRow : Obligations.WordsMatchTheirTableRow := by
  intro w hw
  refine ⟨fun i hdec => ?_, fun row hrow hm => decodes_of_matches_row hw hrow hm⟩
  have henc := encode_of_decodeWord hdec
  have hi : i ≠ .halt := by
    rintro rfl
    exact hw henc.symm
  exact ⟨opcodeRow_mem_instructionRows hi, henc ▸ encode_matchesTable i⟩

/-- Settles O1: each word is written out, and the decoder computes its instruction. -/
theorem sampleWordsDecode : Obligations.SampleWordsDecode :=
  ⟨rfl, rfl, rfl, rfl, rfl, rfl, rfl, rfl⟩

end Sys2Proof.Proofs

/-!
SUPPORT. The proofs about addresses, memory words and the two data accesses of spec/20_memory.md and
spec/43_loadstore.md: the claims' ranges as the model's checks, the array's words, and how `lw` and
`sw` complete or stop.
-/

namespace Sys2Proof.Proofs

open Sys2Proof.Machine Sys2Proof.Claims

/-! ### Addresses (R41, R44) -/

theorem inArray_iff (s : State) (a : Word) : InArray s a ↔ s.inRange a = true :=
  (inRange_iff s a).symm

theorem valid_iff (s : State) (a : Word) : Valid s a ↔ s.validAddr a = true := by
  simp [Valid, inArray_iff, State.validAddr, wordAligned]

theorem valid_iff_mod (s : State) (a : Word) :
    Valid s a ↔ s.cfg.base.toNat ≤ a.toNat ∧ a.toNat < s.cfg.top ∧ a.toNat % 4 = 0 :=
  (valid_iff s a).trans (validAddr_iff s a)

/-- Two valid addresses name one word or two words that do not overlap. -/
theorem valid_disjoint {s : State} {a b : Word} (ha : Valid s a) (hb : Valid s b) (hne : a ≠ b) :
    a.toNat + 4 ≤ b.toNat ∨ b.toNat + 4 ≤ a.toNat := by
  obtain ⟨-, -, ha4⟩ := (valid_iff_mod s a).mp ha
  obtain ⟨-, -, hb4⟩ := (valid_iff_mod s b).mp hb
  have hn : a.toNat ≠ b.toNat := fun h => hne (BitVec.eq_of_toNat_eq h)
  omega

theorem portError_eq_range_iff (s : State) (a : Word) :
    s.portError a = some .range ↔ ¬ InArray s a := by
  rw [inArray_iff]
  rcases portError_cases s a with ⟨h, hp⟩ | ⟨h, -, hp⟩ | ⟨h, hp⟩
  · simp [h, hp]
  · simp [h, hp]
  · have hin : s.inRange a = true := (Bool.and_eq_true_iff.mp h).1
    simp [hin, hp]

theorem portError_eq_none_iff_valid (s : State) (a : Word) : s.portError a = none ↔ Valid s a :=
  (portError_eq_none_iff s a).trans (valid_iff s a).symm

theorem portError_eq_align_iff (s : State) (a : Word) :
    s.portError a = some .align ↔ InArray s a ∧ ¬ Valid s a := by
  rw [← portError_eq_none_iff_valid, ← not_not (a := InArray s a), ← portError_eq_range_iff]
  rcases s.portError a with _ | _ | _ <;> simp

theorem dataCheck_of_not_inArray {s : State} {ea : Word} (h : ¬ InArray s ea) :
    s.dataCheck ea = some (.memRangeError ea s.pc) := by
  rw [State.dataCheck, (portError_eq_range_iff s ea).mpr h]
  rfl

theorem dataCheck_of_misaligned {s : State} {ea : Word} (hin : InArray s ea) (hv : ¬ Valid s ea) :
    s.dataCheck ea = some (.memAlignError ea s.pc) := by
  rw [State.dataCheck, (portError_eq_align_iff s ea).mpr ⟨hin, hv⟩]
  rfl

theorem dataCheck_eq_none_iff_valid (s : State) (ea : Word) : s.dataCheck ea = none ↔ Valid s ea :=
  (dataCheck_eq_none_iff s ea).trans (valid_iff s ea).symm

/-! ### The words of the array (R26, R41 to R43, R46) -/

theorem base_add_index {s : State} {a : Word} (hc : s.cfg.wf) (hv : Valid s a) :
    s.cfg.base.toNat + 4 * s.index a = a.toNat := by
  obtain ⟨hbase, -, ha4⟩ := (valid_iff_mod s a).mp hv
  obtain ⟨hb4, -, -⟩ := hc
  have hsub : (a - s.cfg.base).toNat = a.toNat - s.cfg.base.toNat :=
    BitVec.toNat_sub_of_le (BitVec.le_def.mpr hbase)
  rw [State.index, BitVec.toNat_ushiftRight, hsub, Nat.shiftRight_eq_div_pow]
  omega

/-- Settles O31: an aligned address of the array is `BASE` plus four times its index. -/
theorem validAddressNamesOneWord : Obligations.ValidAddressNamesOneWord := by
  intro s a hc hv
  have hidx := base_add_index hc hv
  obtain ⟨-, htop, -⟩ := (valid_iff_mod s a).mp hv
  refine ⟨?_, hidx, ?_⟩
  · rw [Config.top] at htop
    omega
  · rw [State.memWord, hidx]

/-- Settles O32: the word named by the address is the one written, and every other word of the array
lies apart from it. -/
theorem memWriteSetsOneWord : Obligations.MemWriteSetsOneWord := by
  intro s a v npc hc hm hv
  have hidx := base_add_index hc hv
  refine ⟨?_, fun k hk => ?_⟩
  · rw [State.memWord, commit_cfg, commit_mem_some, hidx]
    exact Memory.readWord_writeWord_self hm a.toNat v
  · rw [State.memWord, commit_cfg, commit_mem_some]
    exact Memory.readWord_writeWord_of_ne s.mem v (by omega)

/-- Byte `j` of a word assembled from four bytes is the `j`-th of them, lowest address first. -/
theorem wordByte_readWord (m : Memory) (a : Nat) {j : Nat} (hj : j < 4) :
    wordByte (m.readWord a) j = m.readByte (a + j) := by
  apply BitVec.eq_of_getLsbD_eq
  intro i hi
  simp only [wordByte, Memory.readWord, wordOfBytes, BitVec.getLsbD_extractLsb',
    BitVec.getLsbD_append]
  obtain rfl | rfl | rfl | rfl : j = 0 ∨ j = 1 ∨ j = 2 ∨ j = 3 := by omega
  all_goals grind

/-- Settles O33: a word of the array is its four bytes put together, the highest byte first. -/
theorem byteViewIsBigEndian : Obligations.ByteViewIsBigEndian := fun s k _ hj =>
  (wordByte_readWord s.mem (s.cfg.base.toNat + 4 * k) hj).symm

/-! ### How an instruction stops (R44, R145) -/

/-- A stop leaves everything but the status and the output. -/
theorem stops_raise (s : State) (st : Stop) : Stops s (s.raise st) st st.status :=
  ⟨fun _ => rfl, rfl, rfl, rfl, rfl, rfl, rfl⟩

/-- The effective address of the data access of an instruction, if it makes one (R132). -/
def accessAddr (s : State) : Instr → Option Word
  | .lw rs _ imm => some (s.effAddr rs imm)
  | .sw rs _ imm => some (s.effAddr rs imm)
  | _ => none

theorem accessAddr_eq_some_iff {s : State} {i : Instr} {ea : Word} :
    accessAddr s i = some ea ↔ ∃ rs rt imm, (i = .lw rs rt imm ∨ i = .sw rs rt imm) ∧
      ea = s.readReg rs + imm.signExtend 32 := by
  cases i <;> simp [accessAddr, State.effAddr, signExt, eq_comm]

theorem exec_of_dataCheck_some {s : State} {i : Instr} {ea : Word} {e : ErrorStop}
    (hacc : accessAddr s i = some ea) (hc : s.dataCheck ea = some e) :
    exec i s = .next (s.raise (.error e)) := by
  obtain ⟨rs, rt, imm, rfl | rfl, rfl⟩ := accessAddr_eq_some_iff.mp hacc
  · simp only [exec, execLw, State.effAddr, signExt, hc]
  · simp only [exec, execSw, State.effAddr, signExt, hc]

theorem access_stops_of_not_inArray {s : State} {i : Instr} {ea : Word}
    (hacc : accessAddr s i = some ea) (h : ¬ InArray s ea) : ∃ t, exec i s = .next t ∧
      Stops s t (.error (.memRangeError ea s.pc)) (.faulted (.memRangeError ea s.pc)) :=
  ⟨_, exec_of_dataCheck_some hacc (dataCheck_of_not_inArray h), stops_raise s _⟩

theorem access_stops_of_misaligned {s : State} {i : Instr} {ea : Word}
    (hacc : accessAddr s i = some ea) (hin : InArray s ea) (hv : ¬ Valid s ea) :
    ∃ t, exec i s = .next t ∧
      Stops s t (.error (.memAlignError ea s.pc)) (.faulted (.memAlignError ea s.pc)) :=
  ⟨_, exec_of_dataCheck_some hacc (dataCheck_of_misaligned hin hv), stops_raise s _⟩

/-- An access that completes was at a valid address. -/
theorem valid_of_completes {s t : State} {i : Instr} {ea : Word} (h : exec i s = .next t)
    (hr : t.status = .running) (hacc : accessAddr s i = some ea) : Valid s ea := by
  rw [← dataCheck_eq_none_iff_valid]
  cases hc : s.dataCheck ea with
  | none => rfl
  | some e =>
    obtain rfl := Host.Outcome.next.inj ((exec_of_dataCheck_some hacc hc).symm.trans h)
    exact absurd hr (raise_status_ne_running s _)

/-! ### Loads and stores that complete (R130, R131) -/

theorem exec_lw_of_valid {s : State} {rs : Reg} {imm : BitVec 16}
    (h : Valid s (s.effAddr rs imm)) (rt : Reg) : exec (.lw rs rt imm) s =
      .next (s.commit none (some (rt, s.mem.readWord (s.effAddr rs imm).toNat)) (seqPc s.pc)) := by
  simp only [exec, execLw, (dataCheck_eq_none_iff_valid s _).mpr h]

theorem exec_sw_of_valid {s : State} {rs : Reg} {imm : BitVec 16}
    (h : Valid s (s.effAddr rs imm)) (rt : Reg) : exec (.sw rs rt imm) s =
      .next (s.commit (some (s.effAddr rs imm, s.readReg rt)) none (seqPc s.pc)) := by
  simp only [exec, execSw, (dataCheck_eq_none_iff_valid s _).mpr h]

/-- A commit of one word and no register stores that word and nothing else. -/
theorem storesWord_commit (s : State) (ea v npc : Word) :
    StoresWord s (s.commit (some (ea, v)) none npc) ea v npc where
  stored hm := Memory.readWord_writeWord_self hm ea.toNat v
  others _ ha := Memory.readByte_writeWord_of_ne s.mem v ha
  registers q := readReg_commit_none s _ npc q
  pc := rfl
  report := rfl
  steady := ⟨rfl, rfl, rfl⟩

/-- Settles O27: the check of the effective address has three answers, and a load is one register
write. -/
theorem lwLoadsOrStops : Obligations.LwLoadsOrStops := by
  refine ⟨decodesIForm_lw, fun rs rt imm ea s hea => ?_⟩
  subst hea
  exact ⟨fun hv => ⟨_, exec_lw_of_valid hv rt, writesRegister_commit s rt _ _⟩,
    access_stops_of_not_inArray rfl, access_stops_of_misaligned rfl⟩

/-- Settles O28: the check of the effective address has three answers, and a store is one memory
write. -/
theorem swStoresOrStops : Obligations.SwStoresOrStops := by
  refine ⟨decodesIForm_sw, fun rs rt imm ea s hea => ?_⟩
  subst hea
  exact ⟨fun hv => ⟨_, exec_sw_of_valid hv rt, storesWord_commit s _ _ _⟩,
    access_stops_of_not_inArray rfl, access_stops_of_misaligned rfl⟩

/-- What a word reads after a store to another word of the array, or to itself. -/
theorem readWord_writeWord_of_valid {s : State} (hm : s.mem.wf) {a b : Word} (ha : Valid s a)
    (hb : Valid s b) (v : Word) : (s.mem.writeWord a.toNat v).readWord b.toNat =
      if b = a then v else s.mem.readWord b.toNat := by
  split
  · next h => rw [h, Memory.readWord_writeWord_self hm]
  · next h => exact Memory.readWord_writeWord_of_ne s.mem v (valid_disjoint hb ha h)

theorem lw_completes {s t : State} {rs rt : Reg} {imm : BitVec 16}
    (h : exec (.lw rs rt imm) s = .next t) (hr : t.status = .running) :
    Valid s (s.effAddr rs imm) ∧ t.readReg rt =
      if s.cfg.r0Hardwired = true ∧ rt = 0 then 0 else s.mem.readWord (s.effAddr rs imm).toNat := by
  have hv := valid_of_completes h hr rfl
  obtain rfl := Host.Outcome.next.inj ((exec_lw_of_valid hv rt).symm.trans h)
  exact ⟨hv, (writesRegister_commit s rt _ _).written⟩

/-- Settles O29: both accesses were at valid addresses, so the two words are one or do not overlap. -/
theorem loadSeesTheLastStore : Obligations.LoadSeesTheLastStore := by
  intro rs rt imm s t hm hsw ht rs' rt' imm' u hlw hu
  have hstore : Valid s (s.effAddr rs imm) := valid_of_completes hsw ht rfl
  obtain rfl := Host.Outcome.next.inj ((exec_sw_of_valid hstore rt).symm.trans hsw)
  obtain ⟨hload, hread⟩ := lw_completes hlw hu
  have hea : (s.commit (some (s.effAddr rs imm, s.readReg rt)) none (seqPc s.pc)).effAddr rs' imm' =
      s.effAddr rs' imm' := congrArg (· + signExt imm') (readReg_commit_none ..)
  rw [hea] at hload hread
  rw [hread, commit_cfg, commit_mem_some, readWord_writeWord_of_valid hm hstore hload]
  rfl

theorem fetch_of_valid {s : State} (h : Valid s s.pc) : s.fetch = .ok (s.mem.readWord s.pc.toNat) := by
  rw [fetch_eq, if_pos ((valid_iff s s.pc).mp h)]

/-- Settles O30: a fetch reads the memory the store left. -/
theorem storeIsSeenByFetch : Obligations.StoreIsSeenByFetch := by
  intro rs rt imm s t u hm hsw hv hmem hcfg hpc
  obtain rfl := Host.Outcome.next.inj ((exec_sw_of_valid hv rt).symm.trans hsw)
  have hpcv : Valid u u.pc := by
    rw [hpc, valid_iff, validAddr_congr hcfg, validAddr_congr (commit_cfg ..)]
    exact (valid_iff s _).mp hv
  rw [fetch_of_valid hpcv, hmem, hpc]
  exact congrArg _ (Memory.readWord_writeWord_self hm _ _)

/-- Settles O48: of the ways an instruction ends, only the commit of a `sw` writes memory, and it
writes four bytes. -/
theorem onlySwChangesMemory : Obligations.OnlySwChangesMemory := by
  intro i s t a h hne
  rcases exec_cases i s with ⟨-, he⟩ | ⟨_, _, _, _, -, -, he⟩ | ⟨rs, rt, imm, hi, -, he⟩ |
    ⟨-, -, _, _, he⟩ <;> obtain rfl := Host.Outcome.next.inj (he.symm.trans h)
  · exact absurd rfl hne
  · exact absurd rfl hne
  · refine ⟨rs, rt, imm, hi, ?_⟩
    by_contra hout
    exact hne (Memory.readByte_writeWord_of_ne s.mem _ (by
      simp only [State.effAddr, signExt]
      omega))
  · exact absurd rfl hne

end Sys2Proof.Proofs

/-!
SUPPORT. The proofs about one step of the sequencer (spec/40_datapath.md section 7,
spec/60_exceptions.md): what it does for each answer of the host, of the fetch and of the decoder,
which stop it raises, and what it leaves.
-/

namespace Sys2Proof.Proofs

open Sys2Proof.Machine Sys2Proof.Claims

/-! ### Fetch and decode (R82, R83, R142, R144) -/

/-- The host's answers do not influence what is fetched. -/
@[simp] theorem fetchInstr_afterAnswer (s : State) : (AfterAnswer s).fetchInstr = s.fetchInstr := rfl

theorem fetch_of_not_valid {s : State} (h : ¬ Valid s s.pc) : s.fetch = .error (.fetchError s.pc) := by
  rw [fetch_eq, if_neg (mt (valid_iff s s.pc).mpr h)]

theorem fetchInstr_of_not_valid {s : State} (h : ¬ Valid s s.pc) :
    s.fetchInstr = .error (.fetchError s.pc) := by
  rw [State.fetchInstr, fetch_of_not_valid h]

theorem fetchInstr_of_decodeWord {s : State} {i : Instr} (hv : Valid s s.pc)
    (hd : decodeWord (s.mem.readWord s.pc.toNat) = .ok i) : s.fetchInstr = .ok i := by
  rw [State.fetchInstr, fetch_of_valid hv]
  simp only [hd]

/-! ### What a step does (R80, R140, R149) -/

theorem step_of_hostStop {s : State} (hr : s.status = .running) (hh : s.host.head? = some .stop) :
    step s = .next ((AfterAnswer s).raise .hostStop) := by
  simp [step, hr, sampleHost_eq, hh, AfterAnswer]

theorem step_of_fetchInstr_error {s : State} {e : ErrorStop} (hp : Proceeds s)
    (h : s.fetchInstr = .error e) : step s = .next ((AfterAnswer s).raise (.error e)) := by
  rw [← fetchInstr_afterAnswer, AfterAnswer] at h
  rw [step_of_proceed hp.1 hp.2, h, AfterAnswer]

theorem step_of_fetchInstr_ok {s : State} {i : Instr} (hp : Proceeds s)
    (h : s.fetchInstr = .ok i) : step s = exec i (AfterAnswer s) := by
  rw [← fetchInstr_afterAnswer, AfterAnswer] at h
  rw [step_of_proceed hp.1 hp.2, h, AfterAnswer]

theorem step_of_fetch_stop {s : State} {e : ErrorStop} (hp : Proceeds s)
    (h : s.fetchInstr = .error e) : ∃ t, step s = .next t ∧
      Stops (AfterAnswer s) t (.error e) (.faulted e) :=
  ⟨_, step_of_fetchInstr_error hp h, stops_raise _ _⟩

/-- Settles O35: the fetch of a valid PC and the decoder give the instruction. -/
theorem stepRunsTheDecodedInstruction : Obligations.StepRunsTheDecodedInstruction :=
  fun _ _ hp hv hd => step_of_fetchInstr_ok hp (fetchInstr_of_decodeWord hv hd)

/-- Settles O36: the fetch stops before the decoder sees a word. -/
theorem invalidPcStopsWithFetchError : Obligations.InvalidPcStopsWithFetchError :=
  fun _ hp hv => step_of_fetch_stop hp (fetchInstr_of_not_valid hv)

/-- Settles O37: a word of no row has fields the decoder does not list. -/
theorem illegalWordStopsWithDecodeError : Obligations.IllegalWordStopsWithDecodeError := by
  rintro s w hp hv rfl hw hrows
  obtain ⟨why, hd⟩ := decodeWord_of_hasUnlistedFields hw ((matches_no_row_iff _).mp hrows)
  exact step_of_fetch_stop hp (fetchInstr_of_decode_error (fetch_of_valid hv) hd)

theorem exec_halt_stops (s : State) :
    ∃ t, exec .halt s = .next t ∧ Stops s t (.halt s.pc) .halted :=
  ⟨_, rfl, stops_raise s _⟩

/-- Settles O6: the decoder loses no bit, so no word but zero decodes to the sentinel, whose meaning
is the `Halt` stop. -/
theorem zeroWordIsTheSentinel : Obligations.ZeroWordIsTheSentinel :=
  ⟨decodeWord_eq_halt_iff, decodesRForm_sll, decodesRForm_sll 0x00000040 (by decide) (by decide),
    exec_halt_stops⟩

/-- Settles O38: the zero word decodes to the sentinel, whose meaning is the `Halt` stop. -/
theorem zeroWordHaltsCleanly : Obligations.ZeroWordHaltsCleanly := by
  refine ⟨exec_halt_stops, fun s hp hv h0 => ?_⟩
  have hd : decodeWord (s.mem.readWord s.pc.toNat) = .ok .halt := h0 ▸ decodeWord_zero
  obtain ⟨t, he, hst⟩ := exec_halt_stops (AfterAnswer s)
  refine ⟨t, (stepRunsTheDecodedInstruction s .halt hp hv hd).trans he, hst, ?_⟩
  rw [hst.status]
  rfl

/-- Settles O39: the host's answer is looked at before the PC. -/
theorem hostStopEndsTheRun : Obligations.HostStopEndsTheRun := fun _ hr hh =>
  ⟨_, step_of_hostStop hr hh, stops_raise _ _, rfl⟩

/-- Settles O40: the status is looked at before all else. -/
theorem stoppedMachineTakesNoStep : Obligations.StoppedMachineTakesNoStep := fun _ h => if_neg h

/-- Settles O46: the table of R140, stop by stop. -/
theorem stopCodesAndStatuses : Obligations.StopCodesAndStatuses := by
  intro a pc
  simp [Stop.code, Stop.status]

/-- Every instruction has a next state. -/
theorem exec_eq_next (i : Instr) (s : State) : ∃ t, exec i s = .next t := by
  obtain ⟨st, he⟩ | ⟨store, write, -, he⟩ := exec_stops_or_commits i s
  · exact ⟨_, he⟩
  · exact ⟨_, he⟩

/-- Settles O41: a stop is a next state, and so is what an instruction leaves. -/
theorem runningMachineTakesItsStep : Obligations.RunningMachineTakesItsStep := by
  intro s hr
  by_cases hh : s.host.head? = some .stop
  · exact ⟨_, step_of_hostStop hr hh⟩
  · cases hf : s.fetchInstr with
    | error e => exact ⟨_, step_of_fetchInstr_error ⟨hr, hh⟩ hf⟩
    | ok i =>
      rw [step_of_fetchInstr_ok ⟨hr, hh⟩ hf]
      exact exec_eq_next i _

theorem withFetchWord_of_valid {s : State} (hv : Valid s s.pc) (w : Word) :
    s.withFetchWord 32 w.toNat = { s with mem := s.mem.writeWord s.pc.toNat w } := by
  rw [State.withFetchWord, if_pos ((valid_iff s s.pc).mp hv), ofNat_toNat_mod]

/-- Settles O59: the word placed at the PC is the one the fetch reads there. -/
theorem placedWordIsRun : Obligations.PlacedWordIsRun := by
  intro s w i hm hp hv hd
  rw [withFetchWord_of_valid hv]
  refine stepRunsTheDecodedInstruction _ i hp hv ?_
  rw [← hd]
  exact congrArg decodeWord (Memory.readWord_writeWord_self hm _ w)

/-! ### The ports of the memory interface (R81) -/

theorem readsOrErrs_readPort (s : State) (a : Word) : ReadsOrErrs s a (s.readPort a) where
  range := portError_eq_range_iff s a
  align := portError_eq_align_iff s a
  none := portError_eq_none_iff_valid s a
  reads hv := if_pos ((portError_eq_none_iff_valid s a).mpr hv)
  silent hv := if_neg fun h => hv ((portError_eq_none_iff_valid s a).mp h)

theorem dataPort_error (s : State) (d : Word) (writeEnable : Bool) :
    (s.dataPort (some d) writeEnable).error = s.portError d := by
  cases writeEnable <;> rfl

/-- The stop that each error of the data port raises (R44). -/
theorem map_dataStop (s : State) (d : Word) : ∀ error : Option PortError,
    error.map (s.dataStop d) = match error with
      | none => none
      | some .range => some (.memRangeError d s.pc)
      | some .align => some (.memAlignError d s.pc)
  | none => rfl
  | some .range => rfl
  | some .align => rfl

/-- Settles O60: a port that reads has the three answers of its error, and the fetch and the check of
a data access are written from them. -/
theorem portsTellRangeFromAlign : Obligations.PortsTellRangeFromAlign := by
  intro s a d dataAddr writeEnable
  refine ⟨readsOrErrs_readPort s a, readsOrErrs_readPort s d, rfl, rfl, ?fetch, ?dataCheck⟩
  case fetch =>
    by_cases hv : Valid s s.pc
    · simp only [State.memoryInterface, (readsOrErrs_readPort s s.pc).reads hv]
      exact fetch_of_valid hv
    · simp only [State.memoryInterface, (readsOrErrs_readPort s s.pc).silent hv]
      exact fetch_of_not_valid hv
  case dataCheck =>
    rw [State.memoryInterface, dataPort_error]
    exact map_dataStop s d (s.portError d)

end Sys2Proof.Proofs

/-!
SUPPORT. The proofs about jumps and branches of spec/42_control.md, and about the fields and registers
an instruction does not use: the one effect the jumps share, the targets they select, and which of
them keep the PC aligned.
-/

namespace Sys2Proof.Proofs

open Sys2Proof.Machine Sys2Proof.Claims

/-! ### The effect of a jump (R120 to R126) -/

/-- R126. -/
theorem nextFetchChecks (t : State) : NextFetchChecks t := invalidPcStopsWithFetchError t

/-- A commit of no register and no store writes the PC and nothing else. -/
theorem writesPcOnly_commit (s : State) (npc : Word) :
    WritesPcOnly s (s.commit none none npc) npc where
  registers q := readReg_commit_none s none npc q
  memory _ := rfl
  pc := rfl
  report := rfl
  steady := ⟨rfl, rfl, rfl⟩

theorem jumps_of_exec {i : Instr} {s : State} {npc : Word}
    (h : exec i s = .next (s.commit none none npc)) :
    ∃ t, exec i s = .next t ∧ WritesPcOnly s t npc ∧ NextFetchChecks t :=
  ⟨_, h, writesPcOnly_commit s npc, nextFetchChecks _⟩

theorem exec_jr (rs rt rd : Reg) (shamt : BitVec 5) (s : State) :
    exec (.jr rs rt rd shamt) s = .next (s.commit none none (s.readReg rs)) := rfl

theorem exec_j (target : BitVec 26) (s : State) :
    exec (.j target) s = .next (s.commit none none (jumpTarget s.pc target)) := rfl

theorem exec_jal (target : BitVec 26) (s : State) : exec (.jal target) s =
    .next (s.commit none (some (31, s.pc + 4)) (jumpTarget s.pc target)) := rfl

/-- Settles O19: a jump to the value of the register. -/
theorem jrJumpsToRegister : Obligations.JrJumpsToRegister :=
  ⟨decodesRForm_jr, fun rs rt rd shamt s => jumps_of_exec (exec_jr rs rt rd shamt s)⟩

/-- Settles O20: a jump to the target in the region of the next PC. -/
theorem jumpKeepsRegionOfNextPc : Obligations.JumpKeepsRegionOfNextPc :=
  ⟨decodesJForm_j, fun target s => jumps_of_exec (exec_j target s)⟩

/-- Settles O21: the jump of `j` and one register write. -/
theorem jalLinksNextPc : Obligations.JalLinksNextPc :=
  ⟨decodesJForm_jal, fun target s =>
    ⟨_, exec_jal target s, writesRegister_commit s 31 _ _, nextFetchChecks _⟩⟩

/-- Settles O22: a jump to the PC the multiplexer selects by the comparison. -/
theorem beqBranchesOnEqual : Obligations.BeqBranchesOnEqual :=
  ⟨decodesIForm_beq, fun rs rt imm s =>
    jumps_of_exec (selectedPc_beq s rs rt imm ▸ exec_beq rs rt imm s)⟩

/-- Settles O23: a jump to the PC the multiplexer selects by the comparison. -/
theorem bneBranchesOnUnequal : Obligations.BneBranchesOnUnequal :=
  ⟨decodesIForm_bne, fun rs rt imm s =>
    jumps_of_exec (selectedPc_bne s rs rt imm ▸ exec_bne rs rt imm s)⟩

/-- Settles O24: the two select by the same comparison, the other way round. -/
theorem branchesAreComplements : Obligations.BranchesAreComplements := by
  intro rs rt imm s t u hbeq hbne
  obtain rfl := Host.Outcome.next.inj ((exec_beq rs rt imm s).symm.trans hbeq)
  obtain rfl := Host.Outcome.next.inj ((exec_bne rs rt imm s).symm.trans hbne)
  rw [commit_pc, commit_pc, selectedPc_beq, selectedPc_bne]
  by_cases heq : s.readReg rs = s.readReg rt
  · exact .inl ⟨heq, if_pos heq, if_neg (not_not_intro heq)⟩
  · exact .inr ⟨heq, if_neg heq, if_pos heq⟩

/-- Settles O25: the `jr` reads the link value the `jal` wrote, and writes nothing but the PC. -/
theorem callReturnsAfterTheJal : Obligations.CallReturnsAfterTheJal := by
  intro target rt rd shamt s t u hjal hjr
  obtain rfl := Host.Outcome.next.inj ((exec_jal target s).symm.trans hjal)
  obtain rfl := Host.Outcome.next.inj ((exec_jr 31 rt rd shamt _).symm.trans hjr)
  have hlink := writesRegister_commit s 31 (s.pc + 4) (jumpTarget s.pc target)
  refine ⟨?_, fun q hq => ?_, hlink.memory⟩
  · rw [commit_pc, hlink.written, if_neg (by simp)]
  · rw [readReg_commit_none, hlink.others q hq]

/-! ### The alignment of the PC (R126) -/

theorem lowBits_eq_zero_iff (a : Word) : a.extractLsb' 0 2 = 0b00#2 ↔ a.toNat % 4 = 0 := by
  rw [← wordAligned_iff, wordAligned, beq_iff_eq]

theorem seqPc_aligned {pc : Word} (h : pc.toNat % 4 = 0) : (seqPc pc).toNat % 4 = 0 := by
  rw [seqPc, BitVec.toNat_add, show (4 : Word).toNat = 4 from rfl]
  omega

theorem branchTarget_aligned {pc : Word} (h : pc.toNat % 4 = 0) (imm : BitVec 16) :
    (branchTarget pc imm).toNat % 4 = 0 := by
  have hseq := seqPc_aligned h
  rw [branchTarget, BitVec.toNat_add, BitVec.toNat_shiftLeft, Nat.shiftLeft_eq]
  omega

theorem jumpTarget_aligned (pc : Word) (target : BitVec 26) :
    (jumpTarget pc target).toNat % 4 = 0 := by
  rw [jumpTarget, BitVec.toNat_append, Nat.shiftLeft_eq]
  simp

theorem selectedPc_aligned {s : State} {i : Instr} (hi : ∀ rs rt rd shamt, i ≠ .jr rs rt rd shamt)
    (h : s.pc.toNat % 4 = 0) : (selectedPc s i).toNat % 4 = 0 := by
  have hseq := seqPc_aligned h
  cases i with
  | jr rs rt rd shamt => exact absurd rfl (hi rs rt rd shamt)
  | j target | jal target => exact jumpTarget_aligned s.pc target
  | beq rs rt imm =>
    rw [selectedPc_beq]
    split
    exacts [branchTarget_aligned h imm, hseq]
  | bne rs rt imm =>
    rw [selectedPc_bne]
    split
    exacts [branchTarget_aligned h imm, hseq]
  | _ => exact hseq

/-- Settles O26: a stop keeps the PC, and every PC the multiplexer selects but that of `jr` is a
multiple of 4 with the PC before. -/
theorem onlyJrUnalignsThePc : Obligations.OnlyJrUnalignsThePc := by
  intro i s t hi hpc h
  rw [lowBits_eq_zero_iff] at hpc ⊢
  obtain ⟨st, he⟩ | ⟨store, write, -, he⟩ := exec_stops_or_commits i s <;>
    obtain rfl := Host.Outcome.next.inj (he.symm.trans h)
  · exact hpc
  · exact selectedPc_aligned hi hpc

/-! ### Unused fields and register 0 (R21, R70) -/

theorem shiftReg_of_rs {c : Config} (h : c.shiftSrc = .rs) (rs rt : Reg) : shiftReg c rs rt = rs := by
  rw [shiftReg, h]

theorem shiftReg_of_rt {c : Config} (h : c.shiftSrc = .rt) (rs rt : Reg) : shiftReg c rs rt = rt := by
  rw [shiftReg, h]

/-- Settles O7: the meanings do not read the fields, and a shift reads the one `SHIFT_SRC` selects. -/
theorem unusedFieldsDoNotMatter : Obligations.UnusedFieldsDoNotMatter := by
  intro s rs rt rd rs' rt' rd' sh sh' imm
  refine ⟨rfl, rfl, rfl, rfl, rfl, rfl, rfl, fun h => ?_, fun h => ?_⟩
  · simp only [exec, execSll, execSrl, shiftReg_of_rs h, and_self]
  · simp only [exec, execSll, execSrl, shiftReg_of_rt h, and_self]

/-- Settles O34: a hard-wired register 0 discards what is written, and no other register does. -/
theorem registerZeroFollowsItsSetting : Obligations.RegisterZeroFollowsItsSetting := by
  intro s store r v npc
  have hwritten (q : Reg) : (s.commit store (some (q, v)) npc).readReg q =
      if Config.discards s.cfg q then 0 else v := by
    rw [readReg_commit_some, if_pos rfl]
  refine ⟨fun h => ?_, fun h => ?_, fun h => ?_⟩
  · have hd : Config.discards s.cfg 0 = true := (discards_iff s.cfg 0).mpr ⟨h, rfl⟩
    exact ⟨if_pos hd, if_pos hd⟩
  · rw [hwritten, if_neg (by simp [discards_iff, h])]
  · rw [hwritten, if_neg (by simp [discards_iff, h])]

end Sys2Proof.Proofs

/-!
SUPPORT. The proofs about what a step can do at all (spec/40_datapath.md section 7,
spec/60_exceptions.md): it raises one stop or commits, in the order of R91; and what follows for the
verdict, for a run, and for the inputs a step does not read.
-/

namespace Sys2Proof.Proofs

open Sys2Proof.Machine Sys2Proof.Claims

/-! ### A step raises a stop or commits (R90, R145) -/

theorem dataCheck_stop_pc {s : State} {ea : Word} {e : ErrorStop} (h : s.dataCheck ea = some e) :
    (Stop.error e).pc = some s.pc := by
  rcases dataCheck_cases s ea with ⟨-, hc⟩ | ⟨-, -, hc⟩ | ⟨-, hc⟩
  · cases hc.symm.trans h
    rfl
  · cases hc.symm.trans h
    rfl
  · cases hc.symm.trans h

theorem fetchInstr_stop_pc {s : State} {e : ErrorStop} (h : s.fetchInstr = .error e) :
    (Stop.error e).pc = some s.pc := by
  rcases fetchInstr_cases s with ⟨-, hf⟩ | ⟨-, _, -, hf⟩ | ⟨-, _, -, hf⟩
  · cases hf.symm.trans h
    rfl
  · cases hf.symm.trans h
    rfl
  · cases hf.symm.trans h

/-- An instruction raises a stop that records the PC, or commits, a store at a valid address. -/
theorem exec_outcomes (i : Instr) (s : State) :
    (∃ st, st.pc = some s.pc ∧ exec i s = .next (s.raise st)) ∨
    (∃ store write npc, (∀ a v, store = some (a, v) → Valid s a) ∧
      exec i s = .next (s.commit store write npc)) := by
  rcases exec_cases i s with ⟨-, he⟩ | ⟨_, _, _, e, -, hc, he⟩ | ⟨rs, rt, imm, -, hv, he⟩ |
    ⟨-, -, v, npc, he⟩
  · exact .inl ⟨_, rfl, he⟩
  · exact .inl ⟨_, dataCheck_stop_pc hc, he⟩
  · refine .inr ⟨_, _, _, fun a v h => ?_, he⟩
    cases h
    exact (valid_iff s _).mpr hv
  · exact .inr ⟨_, _, _, by simp, he⟩

theorem sampleHost_snd (s : State) : s.sampleHost.2 = AfterAnswer s :=
  congrArg Prod.snd (sampleHost_eq s)

/-- A step raises a stop, which records the PC if it records any, or commits, a store at a valid
address. -/
theorem step_outcomes {s t : State} (h : step s = .next t) :
    (∃ st, (st.pc = none ∨ st.pc = some s.pc) ∧ t = (AfterAnswer s).raise st) ∨
    (s.status = .running ∧ ∃ store write npc, (∀ a v, store = some (a, v) → Valid s a) ∧
      t = (AfterAnswer s).commit store write npc) := by
  have hcases := step_cases h
  rw [sampleHost_snd] at hcases
  obtain ⟨hr, ⟨-, ht⟩ | ⟨-, ⟨e, hf, ht⟩ | ⟨i, -, he⟩⟩⟩ := hcases
  · exact .inl ⟨_, .inl rfl, ht⟩
  · exact .inl ⟨_, .inr (fetchInstr_stop_pc hf), ht⟩
  · obtain ⟨st, hst, he'⟩ | ⟨store, write, npc, hstore, he'⟩ := exec_outcomes i (AfterAnswer s) <;>
      obtain rfl := Host.Outcome.next.inj (he'.symm.trans he)
    · exact .inl ⟨st, .inr hst, rfl⟩
    · exact .inr ⟨hr, store, write, npc, hstore, rfl⟩

/-- Settles O42: a step that does not commit raises a stop, which changes nothing else. -/
theorem everyStopIsPrecise : Obligations.EveryStopIsPrecise := by
  intro s t h ht
  obtain ⟨st, hst, rfl⟩ | ⟨hr, _, _, _, -, rfl⟩ := step_outcomes h
  · exact ⟨st, stops_raise _ st, hst⟩
  · exact absurd hr ht

/-- Settles O52: neither a stop nor a commit touches the parameters or the host's list. -/
theorem stepTakesOneAnswer : Obligations.StepTakesOneAnswer := by
  intro s t h
  obtain ⟨st, -, rfl⟩ | ⟨-, _, _, _, -, rfl⟩ := step_outcomes h
  · exact ⟨rfl, rfl⟩
  · exact ⟨rfl, rfl⟩

/-! ### Which stop a step raises (R91) -/

theorem status_of_exec_commit {i : Instr} {s t : State} {store : Option (Word × Word)}
    {write : Option (Reg × Word)} {npc : Word} (he : exec i s = .next (s.commit store write npc))
    (h : exec i s = .next t) : t.status = s.status := by
  rw [← Host.Outcome.next.inj (he.symm.trans h), commit_status]

/-- How an instruction of a running machine ends, by its data access. -/
theorem exec_status_cases {i : Instr} {s t : State} (hr : s.status = .running)
    (h : exec i s = .next t) :
    (i = .halt ∧ t.status = .halted) ∨
    (∃ ea, accessAddr s i = some ea ∧ ¬ InArray s ea ∧
      t.status = .faulted (.memRangeError ea s.pc)) ∨
    (∃ ea, accessAddr s i = some ea ∧ InArray s ea ∧ ¬ Valid s ea ∧
      t.status = .faulted (.memAlignError ea s.pc)) ∨
    (i ≠ .halt ∧ (∀ ea, accessAddr s i = some ea → Valid s ea) ∧ t.status = .running) := by
  rcases exec_cases i s with ⟨hi, he⟩ | ⟨rs, rt, imm, e, hi, hc, he⟩ | ⟨rs, rt, imm, hi, -, he⟩ |
    ⟨hi, -, v, npc, he⟩
  · obtain rfl := Host.Outcome.next.inj (he.symm.trans h)
    exact .inl ⟨hi, rfl⟩
  · obtain rfl := Host.Outcome.next.inj (he.symm.trans h)
    have hacc : accessAddr s i = some (s.effAddr rs imm) :=
      accessAddr_eq_some_iff.mpr ⟨rs, rt, imm, hi, rfl⟩
    by_cases hin : InArray s (s.effAddr rs imm)
    · have hv : ¬ Valid s (s.effAddr rs imm) := fun hv => by
        simp [(dataCheck_eq_none_iff_valid s _).mpr hv] at hc
      cases (dataCheck_of_misaligned hin hv).symm.trans hc
      exact .inr (.inr (.inl ⟨_, hacc, hin, hv, rfl⟩))
    · cases (dataCheck_of_not_inArray hin).symm.trans hc
      exact .inr (.inl ⟨_, hacc, hin, rfl⟩)
  · have ht := (status_of_exec_commit he h).trans hr
    exact .inr (.inr (.inr ⟨hi ▸ nofun, fun ea => valid_of_completes h ht, ht⟩))
  · have ht := (status_of_exec_commit he h).trans hr
    exact .inr (.inr (.inr ⟨hi, fun ea => valid_of_completes h ht, ht⟩))

/-- The word the PC names, which a fetch reads where the PC is valid. -/
def wordAtPc (s : State) : Word := s.mem.readWord s.pc.toNat

/-- R91 (1) and (2) come before the instruction runs. -/
theorem step_cases_of_proceeds {s t : State} (hp : Proceeds s) (h : step s = .next t) :
    (¬ Valid s s.pc ∧ t.status = .faulted (.fetchError s.pc)) ∨
    (Valid s s.pc ∧ (∃ why, decodeWord (wordAtPc s) = .error why) ∧
      t.status = .faulted (.decodeError (wordAtPc s) s.pc)) ∨
    (Valid s s.pc ∧ ∃ i, decodeWord (wordAtPc s) = .ok i ∧ exec i (AfterAnswer s) = .next t) := by
  by_cases hv : Valid s s.pc
  · cases hd : decodeWord (wordAtPc s) with
    | error why =>
      have hf := fetchInstr_of_decode_error (fetch_of_valid hv) hd
      obtain rfl := Host.Outcome.next.inj ((step_of_fetchInstr_error hp hf).symm.trans h)
      exact .inr (.inl ⟨hv, ⟨why, rfl⟩, rfl⟩)
    | ok i =>
      have he := (step_of_fetchInstr_ok hp (fetchInstr_of_decodeWord hv hd)).symm.trans h
      exact .inr (.inr ⟨hv, i, rfl, he⟩)
  · have hf := fetchInstr_of_not_valid hv
    obtain rfl := Host.Outcome.next.inj ((step_of_fetchInstr_error hp hf).symm.trans h)
    exact .inl ⟨hv, rfl⟩

@[simp] theorem inArray_afterAnswer (s : State) (a : Word) :
    InArray (AfterAnswer s) a ↔ InArray s a := Iff.rfl

@[simp] theorem valid_afterAnswer (s : State) (a : Word) : Valid (AfterAnswer s) a ↔ Valid s a :=
  Iff.rfl

@[simp] theorem accessAddr_afterAnswer (s : State) (i : Instr) :
    accessAddr (AfterAnswer s) i = accessAddr s i := by
  cases i <;> rfl

@[simp] theorem afterAnswer_pc (s : State) : (AfterAnswer s).pc = s.pc := rfl

theorem ne_halt_of_accessAddr {s : State} {i : Instr} {ea : Word} (h : accessAddr s i = some ea) :
    i ≠ .halt := by
  rintro rfl
  cases h

/-- The data access of a decoded word, as R91's clauses write it out. -/
theorem decodes_access_iff {s : State} {i : Instr} {w ea : Word} {p : Prop}
    (hd : decodeWord w = .ok i) :
    (∃ rs rt imm, (decodeWord w = .ok (.lw rs rt imm) ∨ decodeWord w = .ok (.sw rs rt imm)) ∧
        ea = s.readReg rs + imm.signExtend 32 ∧ p) ↔
      accessAddr s i = some ea ∧ p := by
  rw [accessAddr_eq_some_iff]
  simp only [hd, Except.ok.injEq]
  constructor
  · rintro ⟨rs, rt, imm, hi, hea, hp⟩
    exact ⟨⟨rs, rt, imm, hi, hea⟩, hp⟩
  · rintro ⟨⟨rs, rt, imm, hi, hea⟩, hp⟩
    exact ⟨rs, rt, imm, hi, hea, hp⟩

/-- Settles O43: a step ends in one of six ways, and in each the status and the conditions of R91
say the same. -/
theorem stopsHaveOneOrder : Obligations.StopsHaveOneOrder := by
  intro s t hp h
  rw [← wordAtPc, ← decodeWord_eq_halt_iff]
  obtain ⟨hv, ht⟩ | ⟨hv, ⟨why, hd⟩, ht⟩ | ⟨hv, i, hd, he⟩ := step_cases_of_proceeds hp h
  · simp [ht, hv]
  · simp [ht, hv, hd]
  · simp only [decodes_access_iff hd, hv, true_and]
    have hcases := exec_status_cases (s := AfterAnswer s) hp.1 he
    simp only [inArray_afterAnswer, valid_afterAnswer, accessAddr_afterAnswer, afterAnswer_pc]
      at hcases
    obtain ⟨hi, ht⟩ | ⟨ea, hacc, hin, ht⟩ | ⟨ea, hacc, hin, hva, ht⟩ | ⟨hi, hacc, ht⟩ := hcases
    · simp [ht, hd, hi, accessAddr]
    · simp [ht, hd, hacc, ne_halt_of_accessAddr hacc, hin]
    · simp [ht, hd, hacc, ne_halt_of_accessAddr hacc, hin, hva]
    · simpa [ht, hd, hi] using ⟨fun ea h => (hacc ea h).1, fun ea h _ => hacc ea h⟩

/-! ### The verdict (R154) -/

theorem verdict_eq_success_iff (r : RunStatus) : r.verdict = .success ↔ r = .halted := by
  cases r <;> simp [RunStatus.verdict]

theorem verdict_eq_noVerdict_iff (r : RunStatus) : r.verdict = .noVerdict ↔ r = .hostStopped := by
  cases r <;> simp [RunStatus.verdict]

theorem verdict_eq_failure_iff (r : RunStatus) : r.verdict = .failure ↔ ∃ e, r = .faulted e := by
  cases r <;> simp [RunStatus.verdict]

/-- A step that the host lets proceed does not end in the host's stop. -/
theorem status_ne_hostStopped {s t : State} (hp : Proceeds s) (h : step s = .next t) :
    t.status ≠ .hostStopped := by
  obtain ⟨-, ht⟩ | ⟨-, -, ht⟩ | ⟨-, i, -, he⟩ := step_cases_of_proceeds hp h
  · simp [ht]
  · simp [ht]
  · obtain ⟨-, ht⟩ | ⟨ea, -, -, ht⟩ | ⟨ea, -, -, -, ht⟩ | ⟨-, -, ht⟩ :=
      exec_status_cases (s := AfterAnswer s) hp.1 he
    all_goals simp [ht]

/-- Settles O44: the host's stop is the one way to no verdict, and the fetched zero word, by R91's
order, the one way to success. -/
theorem successIsTheZeroWord : Obligations.SuccessIsTheZeroWord := by
  intro s t h
  rw [verdict_eq_success_iff, verdict_eq_noVerdict_iff, verdict_eq_failure_iff]
  have hr : s.status = .running := (step_cases h).1
  by_cases hh : s.host.head? = some .stop
  · obtain rfl := Host.Outcome.next.inj ((step_of_hostStop hr hh).symm.trans h)
    simp [hh, Stop.status]
  · obtain ⟨-, hhalted, -⟩ := stopsHaveOneOrder s t ⟨hr, hh⟩ h
    simp [hh, hhalted, status_ne_hostStopped ⟨hr, hh⟩ h]

/-! ### Runs (R146, R154) -/

theorem runFor_of_stopped {s : State} (h : s.status ≠ .running) (n : Nat) :
    runFor n s = s ∧ outputsOf n s = [] := by
  cases n with
  | zero => exact ⟨rfl, rfl⟩
  | succ n => simp [runFor, outputsOf, stoppedMachineTakesNoStep s h]

theorem runFor_succ_of_next {s t : State} (h : step s = .next t) (n : Nat) :
    runFor (n + 1) s = runFor n t ∧ outputsOf (n + 1) s = t.out.toList ++ outputsOf n t := by
  simp [runFor, outputsOf, h]

/-- Settles O45, by induction on the number of steps before the stop. -/
theorem runEndsAtItsFirstStop : Obligations.RunEndsAtItsFirstStop := by
  intro n m
  induction n with
  | zero =>
    intro s h
    rw [Nat.zero_add]
    exact runFor_of_stopped h m
  | succ n ih =>
    intro s h
    by_cases hr : s.status = .running
    · obtain ⟨t, hstep⟩ := runningMachineTakesItsStep s hr
      obtain ⟨hrun, hout⟩ := runFor_succ_of_next hstep n
      obtain ⟨hrun', hout'⟩ := runFor_succ_of_next hstep (n + m)
      rw [hrun] at h
      obtain ⟨hsame, hsameOut⟩ := ih t h
      rw [Nat.add_right_comm, hrun, hrun', hout, hout', hsame, hsameOut]
      exact ⟨rfl, rfl⟩
    · obtain ⟨hrun, hout⟩ := runFor_of_stopped hr (n + 1)
      rw [hrun, hout]
      exact runFor_of_stopped hr (n + 1 + m)

/-! ### The components of the block (R84 to R90) -/

theorem access_stops_or_valid (s : State) (i : Instr) :
    (∃ ea e, accessAddr s i = some ea ∧ s.dataCheck ea = some e) ∨
    ∀ ea, accessAddr s i = some ea → Valid s ea := by
  refine or_iff_not_imp_left.mpr fun hstop ea hacc => ?_
  rw [← dataCheck_eq_none_iff_valid]
  exact Option.eq_none_iff_forall_ne_some.mpr fun e hc => hstop ⟨ea, e, hacc, hc⟩

theorem portError_of_dataCheck {s : State} {ea : Word} {e : ErrorStop}
    (h : s.dataCheck ea = some e) : ∃ pe, s.portError ea = some pe ∧ s.dataStop ea pe = e :=
  Option.map_eq_some_iff.mp h

/-- A data access that stops does so in the memory stage. -/
theorem runDatapath_of_dataCheck_some {s : State} {i : Instr} {ea : Word} {e : ErrorStop}
    (hacc : accessAddr s i = some ea) (hc : s.dataCheck ea = some e) :
    s.runDatapath i = s.raise (.error e) := by
  obtain ⟨pe, hp, rfl⟩ := portError_of_dataCheck hc
  obtain ⟨rs, rt, imm, rfl | rfl, rfl⟩ := accessAddr_eq_some_iff.mp hacc
  · simp [State.runDatapath, executor, State.snapshot, State.memStage, signExt,
      State.memoryInterface, State.dataPort, State.readPort, hp]
  · simp [State.runDatapath, executor, State.snapshot, State.memStage, signExt,
      State.memoryInterface, State.dataPort, hp]

theorem runDatapath_lw_of_valid {s : State} {rs : Reg} {imm : BitVec 16}
    (h : Valid s (s.effAddr rs imm)) (rt : Reg) : s.runDatapath (.lw rs rt imm) =
      s.commit none (some (rt, s.mem.readWord (s.effAddr rs imm).toNat)) (seqPc s.pc) := by
  have hp := (portError_eq_none_iff_valid s _).mpr h
  simp only [State.effAddr] at hp ⊢
  simp [State.runDatapath, executor, State.snapshot, State.memStage, nextPc, writeback, dest,
    State.memoryInterface, State.dataPort, State.readPort, hp]

theorem runDatapath_sw_of_valid {s : State} {rs : Reg} {imm : BitVec 16}
    (h : Valid s (s.effAddr rs imm)) (rt : Reg) : s.runDatapath (.sw rs rt imm) =
      s.commit (some (s.effAddr rs imm, s.readReg rt)) none (seqPc s.pc) := by
  have hp := (portError_eq_none_iff_valid s _).mpr h
  simp only [State.effAddr] at hp ⊢
  simp [State.runDatapath, executor, State.snapshot, State.memStage, nextPc, writeback, dest,
    State.memoryInterface, State.dataPort, hp]

theorem shiftSource_snapshot (s : State) (rs rt rd : Reg) :
    Snapshot.shiftSource ⟨some (s.readReg rs), some (s.readReg rt), some (s.readReg rd)⟩ s.cfg =
      some (s.readReg (shiftReg s.cfg rs rt)) := by
  cases h : s.cfg.shiftSrc <;> simp [Snapshot.shiftSource, shiftReg, h]

theorem runDatapath_sll (s : State) (rs rt rd : Reg) (shamt : BitVec 5) :
    s.runDatapath (.sll rs rt rd shamt) =
      s.writeResult rd (s.readReg (shiftReg s.cfg rs rt) <<< shamt.toNat) := by
  simp [State.runDatapath, executor, State.snapshot, shiftSource_snapshot, State.memStage, nextPc,
    writeback, dest, State.writeResult]

theorem runDatapath_srl (s : State) (rs rt rd : Reg) (shamt : BitVec 5) :
    s.runDatapath (.srl rs rt rd shamt) =
      s.writeResult rd (s.readReg (shiftReg s.cfg rs rt) >>> shamt.toNat) := by
  simp [State.runDatapath, executor, State.snapshot, shiftSource_snapshot, State.memStage, nextPc,
    writeback, dest, State.writeResult]

/-- Settles O47: a data access that stops does so in the memory stage, one that does not is at a valid
address; a shift reads the register of `SHIFT_SRC`, and the others read what the snapshot holds. -/
theorem meaningsFollowTheDatapath : Obligations.MeaningsFollowTheDatapath := by
  intro i s
  obtain ⟨ea, e, hacc, hc⟩ | hv := access_stops_or_valid s i
  · rw [exec_of_dataCheck_some hacc hc, runDatapath_of_dataCheck_some hacc hc]
  · cases i with
    | lw rs rt imm => rw [exec_lw_of_valid (hv _ rfl), runDatapath_lw_of_valid (hv _ rfl)]
    | sw rs rt imm => rw [exec_sw_of_valid (hv _ rfl), runDatapath_sw_of_valid (hv _ rfl)]
    | sll rs rt rd shamt => exact congrArg _ (runDatapath_sll s rs rt rd shamt).symm
    | srl rs rt rd shamt => exact congrArg _ (runDatapath_srl s rs rt rd shamt).symm
    | beq rs rt imm => exact exec_beq rs rt imm s
    | bne rs rt imm => exact exec_bne rs rt imm s
    | _ => rfl

theorem dest_eq_destination (i : Instr) : dest i = Destination i := by
  cases i <;> rfl

/-- Settles O50: an instruction that does not stop commits, a store for `sw` alone, and reports what
the commit names. -/
theorem reportNamesWhatWasWritten : Obligations.ReportNamesWhatWasWritten := by
  intro i s t hr h
  rcases exec_cases i s with ⟨-, he⟩ | ⟨_, _, _, e, -, -, he⟩ | ⟨rs, rt, imm, rfl, -, he⟩ |
    ⟨-, hsw, v, npc, he⟩ <;> obtain rfl := Host.Outcome.next.inj (he.symm.trans h)
  · exact ⟨fun ht => absurd ht (raise_status_ne_running s _), fun _ => ⟨_, rfl⟩⟩
  · exact ⟨fun ht => absurd ht (raise_status_ne_running s _), fun _ => ⟨_, rfl⟩⟩
  · exact ⟨fun _ => rfl, fun ht => absurd hr ht⟩
  · refine ⟨fun _ => ?_, fun ht => absurd hr ht⟩
    have hdest : ((dest i).map (·, v)).map Prod.fst = Destination i := by
      simp [dest_eq_destination, Function.comp_def]
    rw [commit_out, hdest, commit_pc]
    cases i with
    | sw rs rt imm => exact absurd rfl (hsw rs rt imm)
    | _ => rfl

/-! ### What a step does not read (R149, R152) -/

/-- The state with another list of coming answers and another last output. -/
def withIO (s : State) (host : List HostAnswer) (out : Option StepOutput) : State :=
  { s with host := host, out := out }

@[simp] theorem accessAddr_withIO (s : State) (host : List HostAnswer) (out : Option StepOutput)
    (i : Instr) : accessAddr (withIO s host out) i = accessAddr s i := by
  cases i <;> rfl

theorem exec_withIO {i : Instr} {s t : State} (host : List HostAnswer) (out : Option StepOutput)
    (h : exec i s = .next t) : exec i (withIO s host out) = .next { t with host := host } := by
  obtain ⟨ea, e, hacc, hc⟩ | hv := access_stops_or_valid s i
  · obtain rfl := Host.Outcome.next.inj ((exec_of_dataCheck_some hacc hc).symm.trans h)
    exact exec_of_dataCheck_some ((accessAddr_withIO s host out i).trans hacc) hc
  · have hv' (ea : Word) (hacc : accessAddr (withIO s host out) i = some ea) :
        Valid (withIO s host out) ea := hv ea (accessAddr_withIO s host out i ▸ hacc)
    cases i with
    | lw rs rt imm =>
      obtain rfl := Host.Outcome.next.inj ((exec_lw_of_valid (hv _ rfl) rt).symm.trans h)
      exact exec_lw_of_valid (hv' _ rfl) rt
    | sw rs rt imm =>
      obtain rfl := Host.Outcome.next.inj ((exec_sw_of_valid (hv _ rfl) rt).symm.trans h)
      exact exec_sw_of_valid (hv' _ rfl) rt
    | _ =>
      cases h
      rfl

theorem step_withIO {s t : State} {host : List HostAnswer} (out : Option StepOutput)
    (hh : host.head? = s.host.head?) (h : step s = .next t) :
    step (withIO s host out) = .next { t with host := host.tail } := by
  have hcases := step_cases h
  rw [sampleHost_snd] at hcases
  obtain ⟨hr, ⟨hstop, rfl⟩ | ⟨hgo, hcases⟩⟩ := hcases
  · exact step_of_hostStop (s := withIO s host out) hr (hh.trans hstop)
  · have hp : Proceeds (withIO s host out) := ⟨hr, hh.trans_ne hgo⟩
    obtain ⟨e, hf, rfl⟩ | ⟨i, hf, he⟩ := hcases
    · exact step_of_fetchInstr_error hp hf
    · exact (step_of_fetchInstr_ok hp hf).trans (exec_withIO (s := AfterAnswer s) host.tail out he)

/-- Settles O53: the second state is the first with other coming answers and another output. -/
theorem outputAndLaterAnswersHaveNoInfluence : Obligations.OutputAndLaterAnswersHaveNoInfluence := by
  rintro s ⟨cfg, regs, pc, mem, status, host, out⟩ t rfl rfl rfl rfl rfl hh h
  exact ⟨_, step_withIO out hh h, rfl⟩

end Sys2Proof.Proofs

/-!
SUPPORT. The proofs about the machine's invariant and the start of a run (spec/10_state.md section 5,
spec/70_reset_and_hazards.md section 1): a stop and a commit keep the invariant, a load puts the
image's words in place, and a boot has the reset values and the invariant.
-/

namespace Sys2Proof.Proofs

open Sys2Proof.Machine Sys2Proof.Claims

/-! ### Every step keeps the invariant -/

theorem regsWith_reg_zero {s : State} (h : s.cfg.r0Hardwired = true → s.regs[0] = 0) (r : Reg)
    (v : Word) (hr0 : s.cfg.r0Hardwired = true) : (s.regsWith r v)[0] = 0 := by
  rw [State.regsWith]
  split
  · exact h hr0
  · next hd =>
    have hne : r.val ≠ 0 := fun hr => hd ((discards_iff s.cfg r).mpr ⟨hr0, Fin.ext hr⟩)
    rw [Vector.getElem_set_ne _ _ hne, h hr0]

theorem inv_afterAnswer {s : State} (h : s.Inv) : (AfterAnswer s).Inv :=
  ⟨h.cfg_wf, h.mem_wf, h.mem_in_array, h.reg_zero, h.out_agrees⟩

theorem inv_raise {s : State} (h : s.Inv) {st : Stop} (hst : st.pc = none ∨ st.pc = some s.pc) :
    (s.raise st).Inv where
  cfg_wf := h.cfg_wf
  mem_wf := h.mem_wf
  mem_in_array := h.mem_in_array
  reg_zero := h.reg_zero
  out_agrees := ⟨rfl, hst⟩

/-- The four bytes of a word stored at a valid address lie in the array (R26). -/
theorem commit_memInArray {s : State} (hc : s.cfg.wf) (hm : s.memInArray)
    {store : Option (Word × Word)} (hstore : ∀ a v, store = some (a, v) → Valid s a)
    (write : Option (Reg × Word)) (npc : Word) : (s.commit store write npc).memInArray := by
  cases store with
  | none => exact hm
  | some av =>
    intro c hcell
    obtain ⟨hlo, hhi⟩ := validAddr_word_in_array hc ((valid_iff s av.1).mp (hstore av.1 av.2 rfl))
    rcases Memory.mem_writeWord hcell with ⟨hge, hlt⟩ | hold
    · exact ⟨hlo.trans hge, hlt.trans_le hhi⟩
    · exact hm c hold

theorem inv_commit {s : State} (h : s.Inv) (hr : s.status = .running)
    {store : Option (Word × Word)} (hstore : ∀ a v, store = some (a, v) → Valid s a)
    (write : Option (Reg × Word)) (npc : Word) : (s.commit store write npc).Inv where
  cfg_wf := h.cfg_wf
  mem_wf := commit_mem_wf h.mem_wf store write npc
  mem_in_array := commit_memInArray h.cfg_wf h.mem_in_array hstore write npc
  reg_zero := by
    cases write with
    | none => exact h.reg_zero
    | some rv => exact regsWith_reg_zero h.reg_zero rv.1 rv.2
  out_agrees := ⟨hr, rfl⟩

/-- Settles O54: a step raises a stop that records the PC, or commits a store at a valid address. -/
theorem stepKeepsTheInvariant : Obligations.StepKeepsTheInvariant := by
  intro s t h hstep
  obtain ⟨st, hst, rfl⟩ | ⟨hr, store, write, npc, hstore, rfl⟩ := step_outcomes hstep
  · exact inv_raise (inv_afterAnswer h) hst
  · exact inv_commit (inv_afterAnswer h) hr hstore write npc

/-- A run of the host's interface that has not ended goes on from the next state. -/
theorem core_run_succ {M : Host.Core} {n : Nat} {s t : M.State} (h : M.run (n + 1) s = .next t) :
    ∃ u, M.step s = .next u ∧ M.run n u = .next t := by
  unfold Host.Core.run at h
  split at h
  · next u hstep => exact ⟨u, hstep, h⟩
  · cases h
  · cases h

/-- Settles O56, by induction on the number of steps. -/
theorem runsKeepTheInvariant : Obligations.RunsKeepTheInvariant := by
  intro n
  induction n with
  | zero =>
    intro s t h hrun
    cases hrun
    exact ⟨h, rfl⟩
  | succ n ih =>
    intro s t h hrun
    obtain ⟨u, hstep, hrun⟩ := core_run_succ hrun
    obtain ⟨hinv, hcfg⟩ := ih u t (stepKeepsTheInvariant s u h hstep) hrun
    exact ⟨hinv, hcfg.trans (stepTakesOneAnswer s u hstep).1⟩

/-! ### Reset (R31) -/

theorem resetRegs_getElem (c : Config) (r : Reg) :
    c.resetRegs[r.val] = if r = 29 then BitVec.ofNat 32 c.top else 0 := by
  rw [Config.resetRegs, Vector.getElem_set, Vector.getElem_replicate]
  simp [Fin.ext_iff, eq_comm]

/-- Register 29 is not the one a setting can hard-wire. -/
theorem readReg_resetWith (c : Config) (r : Reg) :
    (State.resetWith c).readReg r = if r = 29 then BitVec.ofNat 32 c.top else 0 := by
  rw [State.readReg]
  split
  · next hd =>
    obtain ⟨-, rfl⟩ := (discards_iff c r).mp hd
    rfl
  · exact resetRegs_getElem c r

theorem inv_resetWith {c : Config} (hc : c.wf) : (State.resetWith c).Inv where
  cfg_wf := hc
  mem_wf := Memory.wf_nil
  mem_in_array := by simp
  reg_zero _ := resetRegs_getElem c 0
  out_agrees := rfl

/-! ### Booting an image (R160, R161) -/

/-- The state an accepted image starts in. -/
def booted (c : Config) (image : List Word) : State :=
  { State.resetWith c with mem := Memory.writeWords [] c.base.toNat image }

theorem boot_eq (c : Config) (image : List Word) : State.boot c image =
    if image.length ≤ c.instrCap then some (booted c image) else none := rfl

theorem boot_eq_some_iff {c : Config} {image : List Word} {s : State} :
    State.boot c image = some s ↔ image.length ≤ c.instrCap ∧ s = booted c image := by
  rw [boot_eq]
  split <;> simp [*, eq_comm]

theorem memWord_booted (c : Config) (image : List Word) (k : Nat) :
    (booted c image).memWord k = image.getD k 0 := by
  have h := Memory.readWord_writeWords Memory.wf_nil c.base.toNat image k
  rwa [Memory.readWord_nil] at h

/-- The image's bytes lie in the array, because `INSTR_CAP` words do. -/
theorem inv_booted {c : Config} (hc : c.wf) {image : List Word} (hlen : image.length ≤ c.instrCap) :
    (booted c image).Inv where
  cfg_wf := hc
  mem_wf := Memory.wf_writeWords Memory.wf_nil _ image
  mem_in_array cell hcell := by
    rcases Memory.mem_writeWords hcell with ⟨hge, hlt⟩ | hnil
    · refine ⟨hge, hlt.trans_le ?_⟩
      simp only [booted, resetWith_cfg, Config.top, Config.memWords]
      omega
    · cases hnil
  reg_zero := (inv_resetWith hc).reg_zero
  out_agrees := rfl

/-- Settles O55: reset has empty memory, and an accepted image fits in the array. -/
theorem resetHasTheInvariant : Obligations.ResetHasTheInvariant := by
  refine ⟨inv_resetWith (by decide), fun c hc => inv_resetWith hc, fun c image s hc hboot => ?_⟩
  obtain ⟨hlen, rfl⟩ := boot_eq_some_iff.mp hboot
  exact inv_booted hc hlen

/-- Settles O57: a boot changes nothing of the reset state but memory. -/
theorem resetValues : Obligations.ResetValues := by
  refine ⟨fun c image s hboot => ?_, rfl⟩
  obtain ⟨-, rfl⟩ := boot_eq_some_iff.mp hboot
  refine ⟨fun r => ?_, rfl, rfl, memWord_booted c image⟩
  rw [Nat.mul_comm]
  exact readReg_resetWith c r

/-- Settles O58: the load refuses by length alone, and writes the image's words and no other. -/
theorem bootLoadsTheImage : Obligations.BootLoadsTheImage := by
  refine fun c image => ⟨?_, fun s hboot => ?_⟩
  · rw [boot_eq, ite_eq_right_iff, ← not_le]
    simp
  · obtain ⟨-, rfl⟩ := boot_eq_some_iff.mp hboot
    exact ⟨memWord_booted c image, rfl⟩

end Sys2Proof.Proofs
